-- ==== Sys2Proof/Word.lean ====
section
/-! DEFINITION. The widths of the block's values (00_scope.md R4 "Fixed sizes", R6): every value is unsigned. -/

namespace Sys2Proof

/-- A memory byte or a general register: 8 bits (10_state.md R8). -/
abbrev Byte := BitVec 8

/-- An opcode, PC, I or a return address: 16 bits (10_state.md R10, R11, R12). -/
abbrev Word := BitVec 16

/-- A 4-bit field of an opcode (30_encoding.md R42). -/
abbrev Nibble := BitVec 4

/-- A 12-bit address: the field `nnn`, LOAD_ADDR, FONT_BASE. -/
abbrev Addr := BitVec 12

/-- A register index 0..15 (10_state.md R8). -/
abbrev Reg := Fin 16

/-- A key index 0..15 (10_state.md R17). -/
abbrev Key := Fin 16

/-- VF, the flag register (10_state.md R9). -/
abbrev VF : Reg := 15

/-- `zext_16` of a 12-bit address (30_encoding.md R43). -/
abbrev zext16 (a : Addr) : Word := a.setWidth 16

end Sys2Proof
end

