-- ==== Sys2Proof/Config.lean ====
section
/-! DEFINITION. The eleven construction parameters of 00_scope.md R4, their defaults and legal ranges, and the free
values of the model: constants without a body, so that no proof can see what they are. -/

namespace Sys2Proof

/-- `shift_mode` (42_load_alu.md R74, R75). -/
inductive ShiftMode where
  | legacy | modern
deriving DecidableEq, Repr

/-- `jump_offset_mode` (41_control_flow.md R62). -/
inductive JumpOffsetMode where
  | legacy | modern
deriving DecidableEq, Repr

/-- `draw_clip_mode` (43_draw.md R78). -/
inductive DrawClipMode where
  | clip | wrap
deriving DecidableEq, Repr

/-- `unknown_opcode_policy` (40_pipeline.md R54). -/
inductive UnknownOpcodePolicy where
  | strict | lenient
deriving DecidableEq, Repr

/-- `FONT_WRITE_POLICY` (20_memory.md R29). -/
inductive FontWritePolicy where
  | discard | write
deriving DecidableEq, Repr

/-- The parameters of one instance, fixed at construction (00_scope.md R4; log 1). -/
structure Config where
  shiftMode            : ShiftMode
  logicQuirkResetVf    : Bool
  jumpOffsetMode       : JumpOffsetMode
  saveLoadIncrementsI  : Bool
  drawClipMode         : DrawClipMode
  unknownOpcodePolicy  : UnknownOpcodePolicy
  /-- LOAD_ADDR, 0x200..0xFFF -/
  loadAddr             : Addr
  /-- FONT_BASE, with FONT_BASE + 80 <= 0x200 -/
  fontBase             : Addr
  fontWritePolicy      : FontWritePolicy
  /-- STRICT_5_9 -/
  strict59             : Bool
  /-- RESET_ZERO -/
  resetZero            : Bool
deriving DecidableEq, Repr

namespace Config

/-- The defaults of 00_scope.md R4 (90_conflicts.md C1; log 2). -/
def standard : Config where
  shiftMode := .modern
  logicQuirkResetVf := false
  jumpOffsetMode := .legacy
  saveLoadIncrementsI := false
  drawClipMode := .clip
  unknownOpcodePolicy := .strict
  loadAddr := 0x200
  fontBase := 0x050
  fontWritePolicy := .discard
  strict59 := false
  resetZero := true

/-- The ranges 00_scope.md R4 gives the two addresses (20_memory.md R27; log 31). -/
def wf (c : Config) : Bool :=
  decide (0x200 ≤ c.loadAddr.toNat) && decide (c.fontBase.toNat + 80 ≤ 0x200)

/-- FREE VALUE: the byte the randomness collaborator supplies at the `n`th draw (42_load_alu.md R76; log 6). -/
opaque randomByte : Nat → Byte

/-- FREE VALUE: V[i] after a reset with RESET_ZERO false (70_reset_and_hazards.md R104; log 4). -/
opaque resetV : Nat → Reg → Byte

/-- FREE VALUE: I after a reset with RESET_ZERO false (R104; log 4). -/
opaque resetI : Nat → Word

/-- FREE VALUE: S[j] after a reset with RESET_ZERO false (R104; log 4). -/
opaque resetS : Nat → Fin 16 → Word

/-- FREE VALUE: DT after a reset with RESET_ZERO false (R104; log 4). -/
opaque resetDT : Nat → Byte

/-- FREE VALUE: ST after a reset with RESET_ZERO false (R104; log 4). -/
opaque resetST : Nat → Byte

end Config

end Sys2Proof
end

