-- ==== Sys2Proof/Machine/Memory.lean ====
section
/-! DEFINITION. Memory as plain data: the cells that differ from the reset contents, in rising order of address
(20_memory.md R24; log 10), with the font table of R28. -/

namespace Sys2Proof.Machine

/-- The listed cells of the 4096-byte memory. -/
abbrev Memory := List Host.Cell

namespace Memory

/-- Bytes in the address space (20_memory.md R24). -/
def size : Nat := 4096

/-! ### The font table (20_memory.md R27, R28; log 11) -/

/-- Glyphs 0 to 3, top row first. -/
def font03 : List Byte :=
  [0xF0, 0x90, 0x90, 0x90, 0xF0] ++ [0x20, 0x60, 0x20, 0x20, 0x70]
  ++ [0xF0, 0x10, 0xF0, 0x80, 0xF0] ++ [0xF0, 0x10, 0xF0, 0x10, 0xF0]
/-- Glyphs 4 to 7. -/
def font47 : List Byte :=
  [0x90, 0x90, 0xF0, 0x10, 0x10] ++ [0xF0, 0x80, 0xF0, 0x10, 0xF0]
  ++ [0xF0, 0x80, 0xF0, 0x90, 0xF0] ++ [0xF0, 0x10, 0x20, 0x40, 0x40]
/-- Glyphs 8 to B. -/
def font8B : List Byte :=
  [0xF0, 0x90, 0xF0, 0x90, 0xF0] ++ [0xF0, 0x90, 0xF0, 0x10, 0xF0]
  ++ [0xF0, 0x90, 0xF0, 0x90, 0x90] ++ [0xE0, 0x90, 0xE0, 0x90, 0xE0]
/-- Glyphs C to F. -/
def fontCF : List Byte :=
  [0xF0, 0x80, 0x80, 0x80, 0xF0] ++ [0xE0, 0x90, 0x90, 0x90, 0xE0]
  ++ [0xF0, 0x80, 0xF0, 0x80, 0xF0] ++ [0xF0, 0x80, 0xF0, 0x80, 0x80]

/-- `FONT`: the 80 bytes, glyph by glyph. -/
def font : List Byte := font03 ++ font47 ++ font8B ++ fontCF

/-- The font region is `[FONT_BASE, FONT_BASE + 80)` (R27). -/
def inFont (fontBase : Addr) (a : Nat) : Bool :=
  decide (fontBase.toNat ≤ a) && decide (a < fontBase.toNat + 80)

/-- What an unlisted address reads as: the reset contents, "memory zeroed except font table"
(70_reset_and_hazards.md R104). -/
def resetContents (fontBase : Addr) (a : Nat) : Byte :=
  if inFont fontBase a then font.getD (a - fontBase.toNat) 0 else 0

/-! ### Reading and writing one cell -/

/-- The listed byte at `a`, if there is one. -/
def cellAt : Memory → Nat → Option Byte
  | [], _ => none
  | (k, b) :: rest, a => if a = k then some b else cellAt rest a

/-- The byte at address `a` (below 4096). -/
def readCell (fontBase : Addr) (m : Memory) (a : Nat) : Byte :=
  (cellAt m a).getD (resetContents fontBase a)

/-- The cell to list for `a` holding `b`: none when `b` is what an unlisted `a` reads as. -/
def listed (fontBase : Addr) (a : Nat) (b : Byte) : Memory :=
  if b = resetContents fontBase a then [] else [(a, b)]

/-- The memory in which `a` holds `b`, in canonical form. -/
def writeCell (fontBase : Addr) : Memory → Nat → Byte → Memory
  | [], a, b => listed fontBase a b
  | (k, c) :: rest, a, b =>
    if a < k then listed fontBase a b ++ (k, c) :: rest
    else if a = k then listed fontBase a b ++ rest
    else (k, c) :: writeCell fontBase rest a b

/-- Canonical from address `lo` on: rising addresses of the space, no cell equal to its reset contents. -/
def wfFrom (fontBase : Addr) : Nat → Memory → Bool
  | _, [] => true
  | lo, (k, b) :: rest =>
    decide (lo ≤ k) && decide (k < size) && b != resetContents fontBase k && wfFrom fontBase (k + 1) rest

/-- The canonical form (log 10). -/
def wf (fontBase : Addr) (m : Memory) : Bool := wfFrom fontBase 0 m

end Memory

end Sys2Proof.Machine
end

