-- ==== Sys2Proof/Machine/State.lean ====
section
/-! DEFINITION. The state of one instance (10_state.md), its reset value (70_reset_and_hazards.md R104), and the
reasons a step can stop. -/

namespace Sys2Proof.Machine

/-- The halt kinds (60_exceptions.md R91). -/
inductive HaltKind where
  | invalidOpcode | stackOverflow | stackUnderflow | programTooLarge | externalStop
deriving DecidableEq, Repr

/-- The numeric code of a kind (60_exceptions.md R91, D17; log 18). -/
def HaltKind.code : HaltKind → Nat
  | .invalidOpcode => 1
  | .stackOverflow => 2
  | .stackUnderflow => 3
  | .programTooLarge => 4
  | .externalStop => 5

/-- The halt record (10_state.md R21; log 18). -/
structure HaltRecord where
  kind   : HaltKind
  opcode : Option Word
  addr   : Option Word
deriving DecidableEq, Repr

/-- The executor state (10_state.md R20). -/
inductive ExecState where
  | running
  | awaitingKey (t : Reg)
  | halted (h : HaltRecord)
deriving DecidableEq, Repr

/-- One pixel row: 64 columns, column 0 at the left edge (10_state.md R18). -/
abbrev PixelRow := Vector Bool 64

/-- The framebuffer: 32 rows, row 0 at the top edge (10_state.md R18). -/
abbrev Framebuffer := Vector PixelRow 32

/-- The complete state of one instance, the tuple of 10_state.md, with the construction parameters that R23 lists as
control state and one counter of the model's own. Field names are the spec's (00_scope.md R7). -/
structure State where
  /-- general registers V0..VF (R8) -/
  V      : Vector Byte 16
  /-- index register (R10) -/
  I      : Word
  /-- program counter (R11) -/
  PC     : Word
  /-- call stack entries (R12) -/
  S      : Vector Word 16
  /-- stack entries in use, 0..16 (R12) -/
  SP     : Fin 17
  /-- delay timer (R15) -/
  DT     : Byte
  /-- sound timer (R15) -/
  ST     : Byte
  /-- memory (20_memory.md R24) -/
  M      : Memory
  /-- framebuffer (R18) -/
  FB     : Framebuffer
  /-- input latch, true = pressed (R17) -/
  K      : Vector Bool 16
  /-- dirty flag (R19) -/
  dirty  : Bool
  /-- executor state (R20) -/
  st     : ExecState
  /-- the program load is used up or a step has run (R22) -/
  loaded : Bool
  /-- construction parameters, read-only (00_scope.md R4, R23; log 1) -/
  cfg    : Config
  /-- the model's own: free values taken so far (log 6, log 7) -/
  draws  : Nat
deriving DecidableEq, Repr

/-- The faults of the machine: none. Every error the spec names moves the executor to `Halted`, which is a next state
(60_exceptions.md R92; log 8); nobody raises a fault, which is safe and cannot hide a behaviour. -/
inductive Fault where
deriving DecidableEq, Repr

/-- The refusals. -/
inductive Refusal where
  /-- Raised by exec's arm of an instruction that has no meaning yet. Safe: nothing is said of it. No arm raises it. -/
  | notModelled (mnemonic : String)
  /-- Raised by `load_program` when the load is not admitted: "refused, no move" (20_memory.md R40). Safe: the model
  has no such run (93_implementation_defined.md U15). -/
  | loadNotAdmitted
deriving DecidableEq, Repr

/-- What a meaning answers. -/
abbrev Result := Host.Outcome State Fault Refusal

/-- The state `reset()` leaves in an instance with parameters `cfg` that has taken `draws` free values
(70_reset_and_hazards.md R104; log 3, log 4, log 5). -/
def State.initial (cfg : Config) (draws : Nat) : State where
  V := if cfg.resetZero then Vector.replicate 16 0 else Vector.ofFn (fun i => Config.resetV draws i)
  I := if cfg.resetZero then 0 else Config.resetI draws
  PC := zext16 cfg.loadAddr
  S := if cfg.resetZero then Vector.replicate 16 0 else Vector.ofFn (fun j => Config.resetS draws j)
  SP := 0
  DT := if cfg.resetZero then 0 else Config.resetDT draws
  ST := if cfg.resetZero then 0 else Config.resetST draws
  M := []
  FB := Vector.replicate 32 (Vector.replicate 64 false)
  K := Vector.replicate 16 false
  dirty := false
  st := .running
  loaded := false
  cfg := cfg
  draws := if cfg.resetZero then draws else draws + 1

/-- The instance with the default parameters, right after construction (R104: construction is a reset; log 2, log 7). -/
def State.reset : State := State.initial Config.standard 0

end Sys2Proof.Machine
end

