-- ==== Sys2Proof/Machine/Ops.lean ====
section
/-! DEFINITION. The named operations over registers, memory, stack and framebuffer that every meaning is built from,
and the one way an error ends a step (`raiseHalt`), with the one way out of it (`resetOp`) beside it. -/

namespace Sys2Proof.Machine.State

/-! ### Registers -/

/-- `V[i]` (10_state.md R8). -/
def getV (s : State) (i : Reg) : Byte := s.V[i]
/-- `V[i] <- v`. -/
def setV (s : State) (i : Reg) (v : Byte) : State := { s with V := s.V.set i v }
/-- `I <- v` (R10). -/
def setI (s : State) (v : Word) : State := { s with I := v }
/-- `PC <- v` (R11). -/
def setPC (s : State) (v : Word) : State := { s with PC := v }
/-- `DT <- v` (R15). -/
def setDT (s : State) (v : Byte) : State := { s with DT := v }
/-- `ST <- v` (R15). -/
def setST (s : State) (v : Byte) : State := { s with ST := v }
/-- `FB <- f` (R18). -/
def setFB (s : State) (f : Framebuffer) : State := { s with FB := f }
/-- `dirty <- b` (R19). -/
def setDirty (s : State) (b : Bool) : State := { s with dirty := b }
/-- `st <- e` (R20). -/
def setSt (s : State) (e : ExecState) : State := { s with st := e }
/-- `loaded <- b` (R22). -/
def setLoaded (s : State) (b : Bool) : State := { s with loaded := b }
/-- The listed cells of memory. -/
def setM (s : State) (m : Memory) : State := { s with M := m }
/-- `S[j] <- a` with the stack pointer moved to `p` (R12). -/
def setStack (s : State) (j : Fin 16) (a : Word) (p : Fin 17) : State := { s with S := s.S.set j a, SP := p }
/-- `SP <- p` (R12). -/
def setSP (s : State) (p : Fin 17) : State := { s with SP := p }
/-- `K[k] <- pressed` (R17). -/
def setK (s : State) (k : Key) (pressed : Bool) : State := { s with K := s.K.set k pressed }
/-- One more free value has been taken (log 6). -/
def tookDraw (s : State) : State := { s with draws := s.draws + 1 }

/-- All register indices, in ascending order. -/
def allRegs : List Reg := [0, 1, 2, 3, 4, 5, 6, 7, 8, 9, 10, 11, 12, 13, 14, 15]

/-- The indices `0 .. x` of Fx55 and Fx65, ascending (45_timers_index_memory.md R89, R90). -/
def regsUpTo (x : Reg) : List Reg := allRegs.filter (fun i => decide (i ≤ x))

/-! ### Program counter (40_pipeline.md R48, R49) -/

/-- PC moves past one word, mod 2^16. -/
def advancePC (s : State) : State := s.setPC (s.PC + 2)

/-- A skip: one further word when the condition holds (R49). -/
def skipIf (c : Bool) (s : State) : State := if c then s.advancePC else s

/-- The address `a` of the instruction being executed, whose fetch has already advanced PC (R49; log 9). -/
def instrAddr (s : State) : Word := s.PC - 2

/-! ### Memory (20_memory.md) -/

/-- `read_byte(a)` = `MemRead(a, 1)`: the address is taken mod 4096 (R25, R30). -/
def readByte (s : State) (a : Nat) : Byte := Memory.readCell s.cfg.fontBase s.M (a % Memory.size)

/-- `MemRead(a, n)`: the bytes at `a`, `a + 1`, ..., each address mod 4096, the first most significant (R30). -/
def memRead (s : State) (a : Nat) : (n : Nat) → BitVec (8 * n)
  | 0 => 0#0
  | n + 1 => memRead s a n ++ s.readByte (a + n)

/-- A write that no policy governs: `load_program` and the host's placing of an instruction (R40). -/
def pokeByte (s : State) (a : Nat) (b : Byte) : State :=
  s.setM (Memory.writeCell s.cfg.fontBase s.M (a % Memory.size) b)

/-- An instruction's write to `a` (below 4096) is dropped (R29). -/
def fontProtected (c : Config) (a : Nat) : Bool :=
  c.fontWritePolicy == .discard && Memory.inFont c.fontBase a

/-- `write_byte(a, b)` = `MemWrite(a, 1, b)` (R31, R29). -/
def writeByte (s : State) (a : Nat) (b : Byte) : State :=
  if fontProtected s.cfg (a % Memory.size) then s else s.pokeByte a b

/-- Single-byte writes at `a`, `a + 1`, ... in ascending order. -/
def storeBytes (s : State) (a : Nat) : List Byte → State
  | [] => s
  | b :: rest => (s.writeByte a b).storeBytes (a + 1) rest

/-- Byte `k` of an `n`-byte value, the most significant byte being byte 0 (R31). -/
def byteOf (n : Nat) (v : BitVec (8 * n)) (k : Nat) : Byte := v.extractLsb' (8 * (n - 1 - k)) 8

/-- `MemWrite(a, n, v)` (R31). -/
def memWrite (s : State) (a n : Nat) (v : BitVec (8 * n)) : State :=
  s.storeBytes a ((List.range n).map (byteOf n v))

/-- `pokeByte` at `a`, `a + 1`, ... -/
def pokeBytes (s : State) (a : Nat) : List Byte → State
  | [] => s
  | b :: rest => (s.pokeByte a b).pokeBytes (a + 1) rest

/-- The opcode at PC (R32). -/
def fetch (s : State) : Word := s.memRead s.PC.toNat 2

/-! ### Call stack (10_state.md R13, R14) -/

/-- `push(a)`: none when 16 entries are in use (R13). -/
def push (s : State) (a : Word) : Option State :=
  if h : s.SP.val < 16 then some (s.setStack ⟨s.SP.val, h⟩ a ⟨s.SP.val + 1, by omega⟩) else none

/-- `pop()`: none when no entry is in use; the entry is not cleared (R14; log 23). -/
def pop (s : State) : Option (Word × State) :=
  match h : s.SP.val with
  | 0 => none
  | p + 1 => some (s.S[p]'(by have := s.SP.isLt; omega), s.setSP ⟨p, by have := s.SP.isLt; omega⟩)

/-! ### Framebuffer (10_state.md R18) -/

/-- `FB[y][x]`. -/
def pixel (f : Framebuffer) (x : Fin 64) (y : Fin 32) : Bool := f[y][x]

/-- `FB[y][x] <- FB[y][x] ^ 1`. -/
def togglePixel (f : Framebuffer) (x : Fin 64) (y : Fin 32) : Framebuffer :=
  f.set y (f[y].set x (!pixel f x y))

/-- Every pixel 0. -/
def blankFB : Framebuffer := Vector.replicate 32 (Vector.replicate 64 false)

/-! ### Errors (60_exceptions.md R92, R94) -/

/-- `raise Halt(kind, opcode, addr)`: the block's only reaction to an error. Nothing else is saved or written. -/
def raiseHalt (s : State) (kind : HaltKind) (opcode addr : Option Word) : State :=
  s.setSt (.halted ⟨kind, opcode, addr⟩)

/-- A later stop "does not replace the first record" (60_exceptions.md R93, R95). -/
def raiseUnlessHalted (s : State) (kind : HaltKind) (opcode addr : Option Word) : State :=
  match s.st with
  | .halted _ => s
  | .running => s.raiseHalt kind opcode addr
  | .awaitingKey _ => s.raiseHalt kind opcode addr

/-- An instruction with opcode `op` raises `kind`: the record holds `op` and the instruction's own address (40_pipeline.md
R50). -/
def raiseAtInstr (s : State) (kind : HaltKind) (op : Word) : State :=
  s.raiseHalt kind (some op) (some s.instrAddr)

/-- `reset()`: the only way out of `Halted`; the parameters are kept (70_reset_and_hazards.md R104; 60_exceptions.md R94;
log 27). -/
def resetOp (s : State) : State := State.initial s.cfg s.draws

end Sys2Proof.Machine.State
end

