-- ==== Sys2Proof/Machine/Operands.lean ====
section
/-! DEFINITION. The operand forms: how an instruction turns its fields, the registers and the parameters into the
values it works on. -/

namespace Sys2Proof.Machine

/-- `V[x][3:0]`, as a key or glyph number (44_keys.md R79, 45_timers_index_memory.md R87; log 16). -/
def lowNibble (v : Byte) : Fin 16 := ⟨v.toNat % 16, Nat.mod_lt _ (by decide)⟩

/-- The source of a shift: Vy in legacy mode, Vx in modern mode (42_load_alu.md R74). -/
def shiftSource (s : State) (x y : Reg) : Byte :=
  match s.cfg.shiftMode with
  | .legacy => s.getV y
  | .modern => s.getV x

/-- The register whose value Bnnn adds: V0 in legacy mode, Vx in modern mode (41_control_flow.md R62). -/
def jumpOffsetReg (c : Config) (x : Reg) : Reg :=
  match c.jumpOffsetMode with
  | .legacy => 0
  | .modern => x

/-- The target of Bnnn: at most 0x10FE, kept in 16 bits (R62). -/
def jumpOffsetTarget (nnn : Addr) (v : Byte) : Word := zext16 nnn + v.setWidth 16

/-- The address of glyph `d`: FONT_BASE + 5 * d (45_timers_index_memory.md R87). -/
def glyphAddr (c : Config) (d : Fin 16) : Word := zext16 c.fontBase + BitVec.ofNat 16 (5 * d.val)

/-- Hundreds, tens and units of a byte (45_timers_index_memory.md R88). -/
def bcdDigits (v : Byte) : List Byte :=
  [BitVec.ofNat 8 (v.toNat / 100), BitVec.ofNat 8 (v.toNat / 10 % 10), BitVec.ofNat 8 (v.toNat % 10)]

/-- I after Fx55 or Fx65: `I + x + 1` mod 2^16 when `save_load_increments_i`, else unchanged (R89, R90). -/
def indexAfterTransfer (c : Config) (i : Word) (x : Reg) : Word :=
  if c.saveLoadIncrementsI then i + BitVec.ofNat 16 (x.val + 1) else i

/-- The start column of a sprite: `V[x] mod 64` (43_draw.md R78). -/
def spriteX (v : Byte) : Nat := v.toNat % 64

/-- The start row of a sprite: `V[y] mod 32` (R78). -/
def spriteY (v : Byte) : Nat := v.toNat % 32

/-- The `n` sprite bytes at I, I + 1, ..., each address mod 4096 (R78). -/
def spriteRows (s : State) (n : Nat) : List Byte :=
  (List.range n).map (fun r => s.readByte (s.I.toNat + r))

/-- The framebuffer pixel a sprite pixel at column `px`, row `py` falls on: past the right or bottom edge none in clip
mode, the wrapped one in wrap mode (R78). -/
def pixelTarget (mode : DrawClipMode) (px py : Nat) : Option (Fin 64 × Fin 32) :=
  if mode = .clip ∧ (64 ≤ px ∨ 32 ≤ py) then none
  else some (⟨px % 64, Nat.mod_lt _ (by decide)⟩, ⟨py % 32, Nat.mod_lt _ (by decide)⟩)

end Sys2Proof.Machine
end

