-- ==== Sys2Proof/Machine/Flags.lean ====
section
/-! DEFINITION. The results and flags of the ALU (42_load_alu.md R63, R64): exact on integers, then narrowed; the flag is
written to VF after the result. -/

namespace Sys2Proof.Machine

/-- A flag as a register value: 1 or 0 (10_state.md R9). -/
def flagByte (b : Bool) : Byte := if b then 1 else 0

/-- `(vx + vy) mod 256` (R64). -/
def addResult (vx vy : Byte) : Byte := BitVec.ofNat 8 (vx.toNat + vy.toNat)

/-- The carry out of 8 bits: `vx + vy > 255` (R64, R71). -/
def addCarry (vx vy : Byte) : Bool := decide (255 < vx.toNat + vy.toNat)

/-- `(minuend - subtrahend) mod 256` (R64). -/
def subResult (minuend subtrahend : Byte) : Byte :=
  BitVec.ofInt 8 ((minuend.toNat : Int) - (subtrahend.toNat : Int))

/-- NOT borrow: `minuend >= subtrahend` (R64, R72). -/
def notBorrow (minuend subtrahend : Byte) : Bool := decide (subtrahend.toNat ≤ minuend.toNat)

/-- `src >> 1` (R74). -/
def shrResult (src : Byte) : Byte := src >>> 1

/-- The bit a right shift pushes out: bit 0 (R74). -/
def shrFlag (src : Byte) : Bool := src.getLsbD 0

/-- `(src << 1) mod 256` (R75). -/
def shlResult (src : Byte) : Byte := src <<< 1

/-- The bit a left shift pushes out: bit 7 (R75). -/
def shlFlag (src : Byte) : Bool := src.getLsbD 7

namespace State

/-- `V[15] <- flag` (10_state.md R9). -/
def setFlag (s : State) (b : Bool) : State := s.setV VF (flagByte b)

/-- The common end of 8xy4, 8xy5, 8xy6, 8xy7 and 8xyE: result to Vx, then flag to VF (R63). -/
def setResultFlag (s : State) (x : Reg) (result : Byte) (flag : Bool) : State := (s.setV x result).setFlag flag

/-- The common end of 8xy1, 8xy2 and 8xy3: result to Vx, then VF <- 0 when `logic_quirk_reset_vf` (R68). -/
def setLogicResult (s : State) (x : Reg) (result : Byte) : State :=
  if s.cfg.logicQuirkResetVf then (s.setV x result).setV VF 0 else s.setV x result

end State

end Sys2Proof.Machine
end

