-- ==== Sys2Proof/Machine/Alu.lean ====
section
/-! DEFINITION. Register loads, ALU and random (42_load_alu.md R65 to R76). Operands are sampled before any write (R63). -/

namespace Sys2Proof.Machine

/-- 6xnn (R65). -/
def execLdImm (x : Reg) (nn : Byte) (s : State) : Result := .next (s.setV x nn)

/-- 7xnn: VF is not written as a flag (R66; log 17). -/
def execAddImm (x : Reg) (nn : Byte) (s : State) : Result := .next (s.setV x (addResult (s.getV x) nn))

/-- 8xy0 (R67). -/
def execLdReg (x y : Reg) (s : State) : Result := .next (s.setV x (s.getV y))

/-- 8xy1 (R68). -/
def execOrReg (x y : Reg) (s : State) : Result := .next (s.setLogicResult x (s.getV x ||| s.getV y))

/-- 8xy2 (R69). -/
def execAndReg (x y : Reg) (s : State) : Result := .next (s.setLogicResult x (s.getV x &&& s.getV y))

/-- 8xy3 (R70). -/
def execXorReg (x y : Reg) (s : State) : Result := .next (s.setLogicResult x (s.getV x ^^^ s.getV y))

/-- 8xy4 (R71). -/
def execAddReg (x y : Reg) (s : State) : Result :=
  .next (s.setResultFlag x (addResult (s.getV x) (s.getV y)) (addCarry (s.getV x) (s.getV y)))

/-- 8xy5: Vx - Vy (R72). -/
def execSub (x y : Reg) (s : State) : Result :=
  .next (s.setResultFlag x (subResult (s.getV x) (s.getV y)) (notBorrow (s.getV x) (s.getV y)))

/-- 8xy7: Vy - Vx (R73). -/
def execSubn (x y : Reg) (s : State) : Result :=
  .next (s.setResultFlag x (subResult (s.getV y) (s.getV x)) (notBorrow (s.getV y) (s.getV x)))

/-- 8xy6 (R74). -/
def execShr (x y : Reg) (s : State) : Result :=
  .next (s.setResultFlag x (shrResult (shiftSource s x y)) (shrFlag (shiftSource s x y)))

/-- 8xyE (R75). -/
def execShl (x y : Reg) (s : State) : Result :=
  .next (s.setResultFlag x (shlResult (shiftSource s x y)) (shlFlag (shiftSource s x y)))

/-- Cxnn: one free byte, AND nn (R76; log 6). -/
def execRnd (x : Reg) (nn : Byte) (s : State) : Result :=
  .next ((s.setV x (Config.randomByte s.draws &&& nn)).tookDraw)

end Sys2Proof.Machine
end

