-- ==== Sys2Proof/Syntax.lean ====
section
/-! DEFINITION. The instruction forms: one constructor per row of spec/opcode_table.json (30_encoding.md R45).
A word of no row is `Unknown` and has no constructor here: the decoder says so (log 30). -/

namespace Sys2Proof

/-- The 34 instruction forms with the operand fields of 30_encoding.md R42. -/
inductive Instr where
  /-- 00E0 `CLS` (43_draw.md R77) -/
  | cls
  /-- 00EE `RET` (41_control_flow.md R55) -/
  | ret
  /-- 1nnn `JP nnn` (R56) -/
  | jp (nnn : Addr)
  /-- 2nnn `CALL nnn` (R57) -/
  | call (nnn : Addr)
  /-- 3xnn `SE Vx, nn` (R58) -/
  | seImm (x : Reg) (nn : Byte)
  /-- 4xnn `SNE Vx, nn` (R59) -/
  | sneImm (x : Reg) (nn : Byte)
  /-- 5xyn `SE Vx, Vy` (R60); `n` is the ignored low nibble (log 29) -/
  | seReg (x y : Reg) (n : Nibble)
  /-- 6xnn `LD Vx, nn` (42_load_alu.md R65) -/
  | ldImm (x : Reg) (nn : Byte)
  /-- 7xnn `ADD Vx, nn` (R66) -/
  | addImm (x : Reg) (nn : Byte)
  /-- 8xy0 `LD Vx, Vy` (R67) -/
  | ldReg (x y : Reg)
  /-- 8xy1 `OR Vx, Vy` (R68) -/
  | orReg (x y : Reg)
  /-- 8xy2 `AND Vx, Vy` (R69) -/
  | andReg (x y : Reg)
  /-- 8xy3 `XOR Vx, Vy` (R70) -/
  | xorReg (x y : Reg)
  /-- 8xy4 `ADD Vx, Vy` (R71) -/
  | addReg (x y : Reg)
  /-- 8xy5 `SUB Vx, Vy` (R72) -/
  | sub (x y : Reg)
  /-- 8xy6 `SHR Vx, Vy` (R74) -/
  | shr (x y : Reg)
  /-- 8xy7 `SUBN Vx, Vy` (R73) -/
  | subn (x y : Reg)
  /-- 8xyE `SHL Vx, Vy` (R75) -/
  | shl (x y : Reg)
  /-- 9xyn `SNE Vx, Vy` (R61); `n` is the ignored low nibble (log 29) -/
  | sneReg (x y : Reg) (n : Nibble)
  /-- Annn `LD I, nnn` (45_timers_index_memory.md R85) -/
  | ldI (nnn : Addr)
  /-- Bnnn `JP V0, nnn` / `JP Vx, nnn` (41_control_flow.md R62); `x` is the high nibble of `nnn` (log 29) -/
  | jpV (x : Reg) (nnn : Addr)
  /-- Cxnn `RND Vx, nn` (42_load_alu.md R76) -/
  | rnd (x : Reg) (nn : Byte)
  /-- Dxyn `DRW Vx, Vy, n` (43_draw.md R78); `n` is the row count -/
  | drw (x y : Reg) (n : Fin 16)
  /-- Ex9E `SKP Vx` (44_keys.md R79) -/
  | skp (x : Reg)
  /-- ExA1 `SKNP Vx` (R80) -/
  | sknp (x : Reg)
  /-- Fx07 `LD Vx, DT` (45_timers_index_memory.md R82) -/
  | ldVDt (x : Reg)
  /-- Fx0A `LD Vx, K` (44_keys.md R81) -/
  | ldK (x : Reg)
  /-- Fx15 `LD DT, Vx` (45_timers_index_memory.md R83) -/
  | ldDt (x : Reg)
  /-- Fx18 `LD ST, Vx` (R84) -/
  | ldSt (x : Reg)
  /-- Fx1E `ADD I, Vx` (R86) -/
  | addI (x : Reg)
  /-- Fx29 `LD F, Vx` (R87) -/
  | ldF (x : Reg)
  /-- Fx33 `LD B, Vx` (R88) -/
  | bcd (x : Reg)
  /-- Fx55 `LD [I], Vx` (R89) -/
  | store (x : Reg)
  /-- Fx65 `LD Vx, [I]` (R90) -/
  | load (x : Reg)
deriving DecidableEq, Repr

end Sys2Proof
end

