-- ==== Sys2Proof/WellFormed.lean ====
section
/-! DEFINITION. Which instruction terms some opcode stands for: the operand fields already carry their widths, so
two checks are left. -/

namespace Sys2Proof

/-- `x` of Bnnn is bits 11..8 of `nnn` (30_encoding.md R42, R43: "the fields overlap"). -/
def Instr.offsetRegisterAgrees (x : Reg) (nnn : Addr) : Bool :=
  decide (x.val = nnn.toNat / 256)

/-- Under STRICT_5_9 a word 5xyn or 9xyn with `n` other than 0 is Unknown (30_encoding.md R44). -/
def Instr.lowNibbleAdmitted (strict59 : Bool) (n : Nibble) : Bool :=
  !strict59 || n == 0

/-- The well-formed instructions of an instance whose STRICT_5_9 is `strict59`. -/
def Instr.WellFormed (strict59 : Bool) : Instr → Bool
  | .jpV x nnn => offsetRegisterAgrees x nnn
  | .seReg _ _ n => lowNibbleAdmitted strict59 n
  | .sneReg _ _ n => lowNibbleAdmitted strict59 n
  | .cls | .ret | .jp _ | .call _ | .seImm _ _ | .sneImm _ _ | .ldImm _ _ | .addImm _ _ | .ldReg _ _ | .orReg _ _
  | .andReg _ _ | .xorReg _ _ | .addReg _ _ | .sub _ _ | .shr _ _ | .subn _ _ | .shl _ _ | .ldI _ | .rnd _ _
  | .drw _ _ _ | .skp _ | .sknp _ | .ldVDt _ | .ldK _ | .ldDt _ | .ldSt _ | .addI _ | .ldF _ | .bcd _ | .store _
  | .load _ => true

end Sys2Proof
end

