-- ==== Sys2Proof/Decode.lean ====
section
/-! DEFINITION. The decoder of 30_encoding.md R44, total on every word, and after it the encoder and the opcode table
of R45, written from the same encodings. -/

namespace Sys2Proof

/-! ### The fields of an opcode (30_encoding.md R42) -/

/-- `c` = op[15:12]. -/
def opClass (op : Word) : Nibble := op.extractLsb' 12 4
/-- `x` = op[11:8], as a register index. -/
def opX (op : Word) : Reg := (op.extractLsb' 8 4).toFin
/-- `y` = op[7:4], as a register index. -/
def opY (op : Word) : Reg := (op.extractLsb' 4 4).toFin
/-- `n` = op[3:0]. -/
def opN (op : Word) : Nibble := op.extractLsb' 0 4
/-- `nn` = op[7:0]. -/
def opNN (op : Word) : Byte := op.extractLsb' 0 8
/-- `nnn` = op[11:0]. -/
def opNNN (op : Word) : Addr := op.extractLsb' 0 12

/-- What the decoder answers: one of the 34 forms, or `Unknown(op)` carrying the raw word (30_encoding.md R44, R46). -/
inductive Decoded where
  | known (i : Instr)
  | unknown (op : Word)
deriving DecidableEq, Repr

/-- Class 0x0: only the exact words 00E0 and 00EE (R44, D8). -/
def decodeClass0 (op : Word) : Decoded :=
  if op = 0x00E0 then .known .cls
  else if op = 0x00EE then .known .ret
  else .unknown op

/-- Class 0x8, by the low nibble (R44, D10). -/
def decodeClass8 (op : Word) : Decoded :=
  match opN op with
  | 0x0#4 => .known (.ldReg (opX op) (opY op))
  | 0x1#4 => .known (.orReg (opX op) (opY op))
  | 0x2#4 => .known (.andReg (opX op) (opY op))
  | 0x3#4 => .known (.xorReg (opX op) (opY op))
  | 0x4#4 => .known (.addReg (opX op) (opY op))
  | 0x5#4 => .known (.sub (opX op) (opY op))
  | 0x6#4 => .known (.shr (opX op) (opY op))
  | 0x7#4 => .known (.subn (opX op) (opY op))
  | 0xE#4 => .known (.shl (opX op) (opY op))
  | _ => .unknown op

/-- Class 0xE, by the low byte (R44, D10). -/
def decodeClassE (op : Word) : Decoded :=
  match opNN op with
  | 0x9E#8 => .known (.skp (opX op))
  | 0xA1#8 => .known (.sknp (opX op))
  | _ => .unknown op

/-- Class 0xF, by the low byte (R44, D10). -/
def decodeClassF (op : Word) : Decoded :=
  match opNN op with
  | 0x07#8 => .known (.ldVDt (opX op))
  | 0x0A#8 => .known (.ldK (opX op))
  | 0x15#8 => .known (.ldDt (opX op))
  | 0x18#8 => .known (.ldSt (opX op))
  | 0x1E#8 => .known (.addI (opX op))
  | 0x29#8 => .known (.ldF (opX op))
  | 0x33#8 => .known (.bcd (opX op))
  | 0x55#8 => .known (.store (opX op))
  | 0x65#8 => .known (.load (opX op))
  | _ => .unknown op

/-- `decode(op)` (30_encoding.md R44). Of the configuration it reads STRICT_5_9 only. -/
def decode (strict59 : Bool) (op : Word) : Decoded :=
  match opClass op with
  | 0x0#4 => decodeClass0 op
  | 0x1#4 => .known (.jp (opNNN op))
  | 0x2#4 => .known (.call (opNNN op))
  | 0x3#4 => .known (.seImm (opX op) (opNN op))
  | 0x4#4 => .known (.sneImm (opX op) (opNN op))
  | 0x5#4 => if strict59 && opN op != 0 then .unknown op else .known (.seReg (opX op) (opY op) (opN op))
  | 0x6#4 => .known (.ldImm (opX op) (opNN op))
  | 0x7#4 => .known (.addImm (opX op) (opNN op))
  | 0x8#4 => decodeClass8 op
  | 0x9#4 => if strict59 && opN op != 0 then .unknown op else .known (.sneReg (opX op) (opY op) (opN op))
  | 0xA#4 => .known (.ldI (opNNN op))
  | 0xB#4 => .known (.jpV (opX op) (opNNN op))
  | 0xC#4 => .known (.rnd (opX op) (opNN op))
  | 0xD#4 => .known (.drw (opX op) (opY op) (opN op).toFin)
  | 0xE#4 => decodeClassE op
  -- the one class left is 0xF
  | _ => decodeClassF op

/-- Byte order of an opcode: "instructions are stored most-significant-byte first" (20_memory.md R32). -/
def opcodeOfBytes (first second : Byte) : Word := first ++ second

/-- The byte at the lower address of an opcode (R32). -/
def firstByte (op : Word) : Byte := op.extractLsb' 8 8

/-- The byte at the higher address of an opcode (R32). -/
def secondByte (op : Word) : Byte := op.extractLsb' 0 8

/-- The decoder on the bytes at the program counter, lowest address first; every opcode is two bytes (30_encoding.md
R41). With fewer than two bytes there is no opcode. -/
def decodeBytes (strict59 : Bool) : List Byte → Option (Decoded × List Byte)
  | b0 :: b1 :: rest => some (decode strict59 (opcodeOfBytes b0 b1), rest)
  | _ => none

/-- The host's question: what the decoder reads from an instruction whose bits are `w`, under the default STRICT_5_9
(log 33). The word is laid out as bytes and read back by `decodeBytes`; bits above 15 belong to no opcode. -/
def decodeTableWord (nbits w : Nat) : Option Instr :=
  let v := w % 2 ^ nbits
  if v < 2 ^ 16 then
    let op : Word := BitVec.ofNat 16 v
    match decodeBytes Config.standard.strict59 [firstByte op, secondByte op] with
    | some (.known i, _) => some i
    | some (.unknown _, _) => none
    | none => none
  else none

/-! ### The encoder (30_encoding.md R42, R45) -/

/-- Word `c nnn`. -/
def wordNNN (c : Nibble) (nnn : Addr) : Word := c ++ nnn
/-- Word `c x nn`. -/
def wordXNN (c : Nibble) (x : Reg) (nn : Byte) : Word := c ++ BitVec.ofFin (w := 4) x ++ nn
/-- Word `c x y n`. -/
def wordXYN (c : Nibble) (x y : Reg) (n : Nibble) : Word := c ++ BitVec.ofFin (w := 4) x ++ BitVec.ofFin (w := 4) y ++ n

/-- The opcode of an instruction: the pattern column of 30_encoding.md R45. -/
def encode : Instr → Word
  | .cls => 0x00E0
  | .ret => 0x00EE
  | .jp nnn => wordNNN 0x1 nnn
  | .call nnn => wordNNN 0x2 nnn
  | .seImm x nn => wordXNN 0x3 x nn
  | .sneImm x nn => wordXNN 0x4 x nn
  | .seReg x y n => wordXYN 0x5 x y n
  | .ldImm x nn => wordXNN 0x6 x nn
  | .addImm x nn => wordXNN 0x7 x nn
  | .ldReg x y => wordXYN 0x8 x y 0x0
  | .orReg x y => wordXYN 0x8 x y 0x1
  | .andReg x y => wordXYN 0x8 x y 0x2
  | .xorReg x y => wordXYN 0x8 x y 0x3
  | .addReg x y => wordXYN 0x8 x y 0x4
  | .sub x y => wordXYN 0x8 x y 0x5
  | .shr x y => wordXYN 0x8 x y 0x6
  | .subn x y => wordXYN 0x8 x y 0x7
  | .shl x y => wordXYN 0x8 x y 0xE
  | .sneReg x y n => wordXYN 0x9 x y n
  | .ldI nnn => wordNNN 0xA nnn
  | .jpV _ nnn => wordNNN 0xB nnn
  | .rnd x nn => wordXNN 0xC x nn
  | .drw x y n => wordXYN 0xD x y (BitVec.ofFin (w := 4) n)
  | .skp x => wordXNN 0xE x 0x9E
  | .sknp x => wordXNN 0xE x 0xA1
  | .ldVDt x => wordXNN 0xF x 0x07
  | .ldK x => wordXNN 0xF x 0x0A
  | .ldDt x => wordXNN 0xF x 0x15
  | .ldSt x => wordXNN 0xF x 0x18
  | .addI x => wordXNN 0xF x 0x1E
  | .ldF x => wordXNN 0xF x 0x29
  | .bcd x => wordXNN 0xF x 0x33
  | .store x => wordXNN 0xF x 0x55
  | .load x => wordXNN 0xF x 0x65

/-! ### The opcode table (30_encoding.md R45, the mask / match column) -/

/-- One row of the table: a word `op` is of the row when `op &&& mask = value`. -/
structure OpcodeRow where
  mnemonic : String
  mask     : Word
  value    : Word
deriving DecidableEq, Repr

/-- The mask of rows 5xyn and 9xyn: F000, or F00F under STRICT_5_9 (R45). -/
def mask59 (strict59 : Bool) : Word := if strict59 then 0xF00F else 0xF000

/-- The row of an instruction form. -/
def rowOf (strict59 : Bool) : Instr → OpcodeRow
  | .cls => ⟨"CLS", 0xFFFF, 0x00E0⟩
  | .ret => ⟨"RET", 0xFFFF, 0x00EE⟩
  | .jp _ => ⟨"JP_nnn", 0xF000, 0x1000⟩
  | .call _ => ⟨"CALL_nnn", 0xF000, 0x2000⟩
  | .seImm _ _ => ⟨"SE_Vx__nn", 0xF000, 0x3000⟩
  | .sneImm _ _ => ⟨"SNE_Vx__nn", 0xF000, 0x4000⟩
  | .seReg _ _ _ => ⟨"SE_Vx__Vy", mask59 strict59, 0x5000⟩
  | .ldImm _ _ => ⟨"LD_Vx__nn", 0xF000, 0x6000⟩
  | .addImm _ _ => ⟨"ADD_Vx__nn", 0xF000, 0x7000⟩
  | .ldReg _ _ => ⟨"LD_Vx__Vy", 0xF00F, 0x8000⟩
  | .orReg _ _ => ⟨"OR_Vx__Vy", 0xF00F, 0x8001⟩
  | .andReg _ _ => ⟨"AND_Vx__Vy", 0xF00F, 0x8002⟩
  | .xorReg _ _ => ⟨"XOR_Vx__Vy", 0xF00F, 0x8003⟩
  | .addReg _ _ => ⟨"ADD_Vx__Vy", 0xF00F, 0x8004⟩
  | .sub _ _ => ⟨"SUB_Vx__Vy", 0xF00F, 0x8005⟩
  | .shr _ _ => ⟨"SHR_Vx__Vy", 0xF00F, 0x8006⟩
  | .subn _ _ => ⟨"SUBN_Vx__Vy", 0xF00F, 0x8007⟩
  | .shl _ _ => ⟨"SHL_Vx__Vy", 0xF00F, 0x800E⟩
  | .sneReg _ _ _ => ⟨"SNE_Vx__Vy", mask59 strict59, 0x9000⟩
  | .ldI _ => ⟨"LD_I__nnn", 0xF000, 0xA000⟩
  | .jpV _ _ => ⟨"JP_V0__nnn", 0xF000, 0xB000⟩
  | .rnd _ _ => ⟨"RND_Vx__nn", 0xF000, 0xC000⟩
  | .drw _ _ _ => ⟨"DRW_Vx__Vy__n", 0xF000, 0xD000⟩
  | .skp _ => ⟨"SKP_Vx", 0xF0FF, 0xE09E⟩
  | .sknp _ => ⟨"SKNP_Vx", 0xF0FF, 0xE0A1⟩
  | .ldVDt _ => ⟨"LD_Vx__DT", 0xF0FF, 0xF007⟩
  | .ldK _ => ⟨"LD_Vx__K", 0xF0FF, 0xF00A⟩
  | .ldDt _ => ⟨"LD_DT__Vx", 0xF0FF, 0xF015⟩
  | .ldSt _ => ⟨"LD_ST__Vx", 0xF0FF, 0xF018⟩
  | .addI _ => ⟨"ADD_I__Vx", 0xF0FF, 0xF01E⟩
  | .ldF _ => ⟨"LD_F__Vx", 0xF0FF, 0xF029⟩
  | .bcd _ => ⟨"LD_B__Vx", 0xF0FF, 0xF033⟩
  | .store _ => ⟨"LD__I___Vx", 0xF0FF, 0xF055⟩
  | .load _ => ⟨"LD_Vx___I", 0xF0FF, 0xF065⟩

/-- One instruction of each form, in the table's order. -/
def formExamples : List Instr :=
  [.cls, .ret, .jp 0, .call 0, .seImm 0 0, .sneImm 0 0, .seReg 0 0 0, .ldImm 0 0, .addImm 0 0]
  ++ [.ldReg 0 0, .orReg 0 0, .andReg 0 0, .xorReg 0 0, .addReg 0 0, .sub 0 0, .shr 0 0, .subn 0 0, .shl 0 0]
  ++ [.sneReg 0 0 0, .ldI 0, .jpV 0 0, .rnd 0 0, .drw 0 0 0, .skp 0, .sknp 0]
  ++ [.ldVDt 0, .ldK 0, .ldDt 0, .ldSt 0, .addI 0, .ldF 0, .bcd 0, .store 0, .load 0]

/-- The 34 rows of 30_encoding.md R45. -/
def opcodeTable (strict59 : Bool) : List OpcodeRow := formExamples.map (rowOf strict59)

/-- `op` matches a row's mask and value. -/
def OpcodeRow.matchesWord (r : OpcodeRow) (op : Word) : Bool := op &&& r.mask == r.value

/-! ### Assembler syntax (30_encoding.md R47, the mnemonic column of R45): documentation, read by nothing in the block -/

/-- One hexadecimal digit. -/
def hexDigit (d : Nat) : String :=
  ["0", "1", "2", "3", "4", "5", "6", "7", "8", "9", "A", "B", "C", "D", "E", "F"].getD (d % 16) "0"

/-- A register operand: V0 to VF. -/
def regText (x : Reg) : String := "V" ++ hexDigit x.val

/-- A one-digit number. -/
def nibbleText (n : Nat) : String := "0x" ++ hexDigit n

/-- An immediate byte. -/
def byteText (nn : Byte) : String := "0x" ++ hexDigit (nn.toNat / 16) ++ hexDigit nn.toNat

/-- An address. -/
def addrText (nnn : Addr) : String :=
  "0x" ++ hexDigit (nnn.toNat / 256) ++ hexDigit (nnn.toNat / 16) ++ hexDigit nnn.toNat

/-- Mnemonic and operands of an instruction; Bnnn is written by the register it adds (41_control_flow.md R62). -/
def assemblyText (mode : JumpOffsetMode) : Instr → String
  | .cls => "CLS"
  | .ret => "RET"
  | .jp nnn => "JP " ++ addrText nnn
  | .call nnn => "CALL " ++ addrText nnn
  | .seImm x nn => "SE " ++ regText x ++ ", " ++ byteText nn
  | .sneImm x nn => "SNE " ++ regText x ++ ", " ++ byteText nn
  | .seReg x y _ => "SE " ++ regText x ++ ", " ++ regText y
  | .ldImm x nn => "LD " ++ regText x ++ ", " ++ byteText nn
  | .addImm x nn => "ADD " ++ regText x ++ ", " ++ byteText nn
  | .ldReg x y => "LD " ++ regText x ++ ", " ++ regText y
  | .orReg x y => "OR " ++ regText x ++ ", " ++ regText y
  | .andReg x y => "AND " ++ regText x ++ ", " ++ regText y
  | .xorReg x y => "XOR " ++ regText x ++ ", " ++ regText y
  | .addReg x y => "ADD " ++ regText x ++ ", " ++ regText y
  | .sub x y => "SUB " ++ regText x ++ ", " ++ regText y
  | .shr x y => "SHR " ++ regText x ++ ", " ++ regText y
  | .subn x y => "SUBN " ++ regText x ++ ", " ++ regText y
  | .shl x y => "SHL " ++ regText x ++ ", " ++ regText y
  | .sneReg x y _ => "SNE " ++ regText x ++ ", " ++ regText y
  | .ldI nnn => "LD I, " ++ addrText nnn
  | .jpV x nnn =>
    match mode with
    | .legacy => "JP V0, " ++ addrText nnn
    | .modern => "JP " ++ regText x ++ ", " ++ addrText nnn
  | .rnd x nn => "RND " ++ regText x ++ ", " ++ byteText nn
  | .drw x y n => "DRW " ++ regText x ++ ", " ++ regText y ++ ", " ++ nibbleText n.val
  | .skp x => "SKP " ++ regText x
  | .sknp x => "SKNP " ++ regText x
  | .ldVDt x => "LD " ++ regText x ++ ", DT"
  | .ldK x => "LD " ++ regText x ++ ", K"
  | .ldDt x => "LD DT, " ++ regText x
  | .ldSt x => "LD ST, " ++ regText x
  | .addI x => "ADD I, " ++ regText x
  | .ldF x => "LD F, " ++ regText x
  | .bcd x => "LD B, " ++ regText x
  | .store x => "LD [I], " ++ regText x
  | .load x => "LD " ++ regText x ++ ", [I]"

end Sys2Proof
end

