-- ==== Sys2Proof/Machine/Control.lean ====
section
/-! DEFINITION. Control flow (41_control_flow.md R55 to R62) and the Unknown instruction (40_pipeline.md R54). On entry PC
is already past the instruction. -/

namespace Sys2Proof.Machine

/-- 00EE: StackUnderflow when no entry is in use (R55). -/
def execRet (s : State) : Result :=
  match s.pop with
  | none => .next (s.raiseAtInstr .stackUnderflow (encode .ret))
  | some (a, s') => .next (s'.setPC a)

/-- 1nnn (R56). -/
def execJp (nnn : Addr) (s : State) : Result := .next (s.setPC (zext16 nnn))

/-- 2nnn: pushes the advanced PC; StackOverflow when 16 entries are in use (R57). -/
def execCall (nnn : Addr) (s : State) : Result :=
  match s.push s.PC with
  | none => .next (s.raiseAtInstr .stackOverflow (encode (.call nnn)))
  | some s' => .next (s'.setPC (zext16 nnn))

/-- 3xnn (R58). -/
def execSeImm (x : Reg) (nn : Byte) (s : State) : Result := .next (s.skipIf (s.getV x == nn))

/-- 4xnn (R59). -/
def execSneImm (x : Reg) (nn : Byte) (s : State) : Result := .next (s.skipIf (s.getV x != nn))

/-- 5xyn (R60); the low nibble has no effect (log 14). -/
def execSeReg (x y : Reg) (s : State) : Result := .next (s.skipIf (s.getV x == s.getV y))

/-- 9xyn (R61); the low nibble has no effect (log 14). -/
def execSneReg (x y : Reg) (s : State) : Result := .next (s.skipIf (s.getV x != s.getV y))

/-- Bnnn (R62). -/
def execJpV (x : Reg) (nnn : Addr) (s : State) : Result :=
  .next (s.setPC (jumpOffsetTarget nnn (s.getV (jumpOffsetReg s.cfg x))))

/-- `Unknown(op)`: InvalidOpcode under strict, a no-op under lenient (40_pipeline.md R54; log 25). -/
def execUnknown (op : Word) (s : State) : Result :=
  match s.cfg.unknownOpcodePolicy with
  | .strict => .next (s.raiseAtInstr .invalidOpcode op)
  | .lenient => .next s

end Sys2Proof.Machine
end

