-- ==== Sys2Proof/Machine/Draw.lean ====
section
/-! DEFINITION. The framebuffer writer (43_draw.md R77, R78). -/

namespace Sys2Proof.Machine

/-- A framebuffer being drawn on, and whether a lit pixel has been erased so far. -/
structure Canvas where
  fb  : Framebuffer
  hit : Bool
deriving DecidableEq, Repr

/-- The update of one framebuffer pixel: `hit` if it was 1, then XOR with 1 (R78). -/
def Canvas.flip (cv : Canvas) (p : Fin 64 × Fin 32) : Canvas :=
  ⟨State.togglePixel cv.fb p.1 p.2, cv.hit || State.pixel cv.fb p.1 p.2⟩

/-- Sprite column `c` of the row byte `b`, whose leftmost pixel is bit 7 (R78; log 24). -/
def drawBit (mode : DrawClipMode) (b : Byte) (x0 py : Nat) (cv : Canvas) (c : Nat) : Canvas :=
  if b.getLsbD (7 - c) then
    match pixelTarget mode (x0 + c) py with
    | none => cv
    | some p => cv.flip p
  else cv

/-- One sprite row: columns 0..7 (R78). -/
def drawRow (mode : DrawClipMode) (x0 py : Nat) (b : Byte) (cv : Canvas) : Canvas :=
  (List.range 8).foldl (drawBit mode b x0 py) cv

/-- The sprite rows from row `py` on (R78). -/
def drawRows (mode : DrawClipMode) (x0 : Nat) : Nat → List Byte → Canvas → Canvas
  | _, [], cv => cv
  | py, b :: rest, cv => drawRows mode x0 (py + 1) rest (drawRow mode x0 py b cv)

/-- 00E0 (R77). -/
def execCls (s : State) : Result := .next ((s.setFB State.blankFB).setDirty true)

/-- The canvas after the sprite of Dxyn: coordinates and bytes are those of the state before it (R78). -/
def drawnCanvas (x y : Reg) (n : Fin 16) (s : State) : Canvas :=
  drawRows s.cfg.drawClipMode (spriteX (s.getV x)) (spriteY (s.getV y)) (spriteRows s n.val) ⟨s.FB, false⟩

/-- Dxyn: every pixel, then VF, then dirty (R78). -/
def execDrw (x y : Reg) (n : Fin 16) (s : State) : Result :=
  .next (((s.setFB (drawnCanvas x y n s).fb).setFlag (drawnCanvas x y n s).hit).setDirty true)

end Sys2Proof.Machine
end

