-- ==== Sys2Proof/Machine/Keys.lean ====
section
/-! DEFINITION. Key input (44_keys.md R79 to R81) and the await-key poll (40_pipeline.md R51). -/

namespace Sys2Proof.Machine

/-- Key `V[x][3:0]` is pressed. -/
def keyOf (s : State) (x : Reg) : Bool := s.K[lowNibble (s.getV x)]

/-- Ex9E (R79). -/
def execSkp (x : Reg) (s : State) : Result := .next (s.skipIf (keyOf s x))

/-- ExA1 (R80). -/
def execSknp (x : Reg) (s : State) : Result := .next (s.skipIf (!keyOf s x))

/-- Fx0A: always enters AwaitingKey; Vx is written by the poll (R81; log 15). -/
def execLdK (x : Reg) (s : State) : Result := .next (s.setSt (.awaitingKey x))

/-- The lowest-numbered pressed key (40_pipeline.md R51; log 15). -/
def lowestKey (s : State) : Option Key := State.allRegs.find? (fun k => s.K[k])

/-- One poll in AwaitingKey(t): it fetches nothing and leaves PC alone (R51). -/
def poll (t : Reg) (s : State) : State :=
  match lowestKey s with
  | none => s
  | some k => (s.setV t (BitVec.ofNat 8 k.val)).setSt .running

end Sys2Proof.Machine
end

