-- ==== Sys2Proof/Machine/Transfer.lean ====
section
/-! DEFINITION. Timer access, index register and memory transfers (45_timers_index_memory.md R82 to R90). -/

namespace Sys2Proof.Machine

/-- Fx07 (R82). -/
def execLdVDt (x : Reg) (s : State) : Result := .next (s.setV x s.DT)

/-- Fx15 (R83). -/
def execLdDt (x : Reg) (s : State) : Result := .next (s.setDT (s.getV x))

/-- Fx18 (R84). -/
def execLdSt (x : Reg) (s : State) : Result := .next (s.setST (s.getV x))

/-- Annn (R85). -/
def execLdI (nnn : Addr) (s : State) : Result := .next (s.setI (zext16 nnn))

/-- Fx1E: mod 2^16, VF unchanged (R86; log 17). -/
def execAddI (x : Reg) (s : State) : Result := .next (s.setI (s.I + (s.getV x).setWidth 16))

/-- Fx29 (R87; log 16). -/
def execLdF (x : Reg) (s : State) : Result := .next (s.setI (glyphAddr s.cfg (lowNibble (s.getV x))))

/-- Fx33 (R88). -/
def execBcd (x : Reg) (s : State) : Result := .next (s.storeBytes s.I.toNat (bcdDigits (s.getV x)))

/-- Fx55 (R89). -/
def execStore (x : Reg) (s : State) : Result :=
  .next ((s.storeBytes s.I.toNat ((State.regsUpTo x).map s.getV)).setI (indexAfterTransfer s.cfg s.I x))

/-- `V[i] <- MemRead(I + i, 1)` for each `i` of the list, in its order (R90). -/
def loadRegs (s : State) (is : List Reg) : State :=
  is.foldl (fun t i => t.setV i (t.readByte (t.I.toNat + i.val))) s

/-- Fx65 (R90). -/
def execLoad (x : Reg) (s : State) : Result :=
  .next ((loadRegs s (State.regsUpTo x)).setI (indexAfterTransfer s.cfg s.I x))

end Sys2Proof.Machine
end

