-- ==== Sys2Proof/Machine/Step.lean ====
section
/-! DEFINITION. `step()` (40_pipeline.md R48), and the placing of one instruction where the next step fetches. -/

namespace Sys2Proof.Machine

/-- What every step does first: `dirty <- false`, `loaded <- true` (R48; log 19). -/
def State.beginStep (s : State) : State := (s.setDirty false).setLoaded true

/-- The step in Running: fetch, decode, advance PC by 2, execute (R48). -/
def State.runOne (s : State) : Host.Outcome State Fault Refusal :=
  match decode s.cfg.strict59 s.fetch with
  | .known i => exec i s.advancePC
  | .unknown op => execUnknown op s.advancePC

/-- `step()` (40_pipeline.md R48, R51, R52). -/
def step (s : State) : Host.Outcome State Fault Refusal :=
  match s.st with
  | .halted _ => .next s.beginStep
  | .awaitingKey t => .next (poll t s.beginStep)
  | .running => s.beginStep.runOne

/-- `s` with the instruction whose bits are `w` stored where `step` fetches next: two bytes at PC, most significant
first, and the executor Running (log 28). -/
def State.withFetchWord (s : State) (nbits w : Nat) : State :=
  let op : Word := BitVec.ofNat 16 (w % 2 ^ nbits)
  (s.pokeBytes s.PC.toNat [firstByte op, secondByte op]).setSt .running

end Sys2Proof.Machine
end

