-- ==== Sys2Proof/Machine/HostOps.lean ====
section
/-! DEFINITION. The block's other host operations, one transition each, and runs of them in an order the host chooses
(00_scope.md R5; 70_reset_and_hazards.md R106; log 26). -/

namespace Sys2Proof.Machine

/-- One timer after a tick: "decrements by 1 if currently nonzero" (60_exceptions.md R98). -/
def tickByte (v : Byte) : Byte := if 0 < v.toNat then v - 1 else v

/-- `tick_timers()`, in every executor state (R98; log 20). -/
def tickTimers (s : State) : State := (s.setDT (tickByte s.DT)).setST (tickByte s.ST)

/-- `set_key(k, pressed)` (10_state.md R17). -/
def setKey (k : Key) (pressed : Bool) (s : State) : State := s.setK k pressed

/-- `stop()`: no effect when already Halted (60_exceptions.md R95; log 22). -/
def stop (s : State) : State := s.raiseUnlessHalted .externalStop none none

/-- The output `sound_active` (10_state.md R16). -/
def soundActive (s : State) : Bool := decide (0 < s.ST.toNat)

/-- The base of a load: the one the host gives, else LOAD_ADDR, the "default base of the program-load port"
(00_scope.md R4). -/
def loadBase (c : Config) (base : Option Nat) : Nat := base.getD c.loadAddr.toNat

/-- A load is admitted: none before it, no step yet, base in 0x200..0xFFF (20_memory.md R40; log 21). -/
def loadAdmitted (s : State) (base : Nat) : Bool :=
  !s.loaded && decide (0x200 ≤ base) && decide (base ≤ 0xFFF)

/-- What an admitted load reports to its caller (R40). -/
inductive LoadReply where
  | ok | programTooLarge
deriving DecidableEq, Repr

/-- `ProgramTooLarge` when the program would overflow the space, else `ok` (R40). -/
def loadReply (bytes : List Byte) (base : Nat) : LoadReply :=
  if Memory.size < base + bytes.length then .programTooLarge else .ok

/-- `load_program(bytes, base)`, as R40's pseudocode has it: `ProgramTooLarge` sets `st` whatever it was (log 21). -/
def loadProgram (bytes : List Byte) (base : Nat) (s : State) : Result :=
  if loadAdmitted s base then
    match loadReply bytes base with
    | .programTooLarge =>
      .next ((s.setLoaded true).raiseHalt .programTooLarge none (some (BitVec.ofNat 16 base)))
    | .ok => .next (((s.setLoaded true).pokeBytes base bytes).setPC (BitVec.ofNat 16 base))
  else .refused .loadNotAdmitted

/-- The host operations (R106). -/
inductive HostOp where
  | step
  | tickTimers
  | setKey (k : Key) (pressed : Bool)
  | loadProgram (bytes : List Byte) (base : Option Nat)
  | reset
  | stop
deriving DecidableEq, Repr

/-- The transition of one host operation. -/
def applyOp (op : HostOp) (s : State) : Result :=
  match op with
  | .step => step s
  | .tickTimers => .next (tickTimers s)
  | .setKey k pressed => .next (setKey k pressed s)
  | .loadProgram bytes base => loadProgram bytes (loadBase s.cfg base) s
  | .reset => .next s.resetOp
  | .stop => .next (stop s)

/-- A run: the operations one after another, ended by a refusal (R106). -/
def runOps : List HostOp → State → Result
  | [], s => .next s
  | op :: rest, s =>
    match applyOp op s with
    | .next s' => runOps rest s'
    | .fault r => .fault r
    | .refused r => .refused r

/-- A new instance with parameters `cfg`: construction "performs the same procedure" as reset (R104). -/
def construct (cfg : Config) : State := State.initial cfg 0

end Sys2Proof.Machine
end

