-- ==== Sys2Proof/Safety.lean ====
section
/-! DEFINITION. The terms claims are written in: the parts of a state and what it means that only some of them change,
which parts and registers each instruction may change, the legal halt states, and the invariant of the machine. -/

namespace Sys2Proof.Machine

/-! ### Frames -/

/-- The parts of a state (10_state.md, "the complete state of one instance"). -/
inductive Part where
  | V | I | PC | stack | DT | ST | memory | FB | K | dirty | st | loaded | cfg | draws
deriving DecidableEq, Repr

/-- The two states agree on a part, each read as an instruction or the host reads it: registers, memory bytes and pixels
one by one. -/
def SamePart (s t : State) : Part → Prop
  | .V => ∀ r : Reg, t.getV r = s.getV r
  | .I => t.I = s.I
  | .PC => t.PC = s.PC
  | .stack => t.SP = s.SP ∧ ∀ j : Fin 16, t.S[j] = s.S[j]
  | .DT => t.DT = s.DT
  | .ST => t.ST = s.ST
  | .memory => ∀ a : Nat, t.readByte a = s.readByte a
  | .FB => ∀ (px : Fin 64) (py : Fin 32), State.pixel t.FB px py = State.pixel s.FB px py
  | .K => ∀ k : Key, t.K[k] = s.K[k]
  | .dirty => t.dirty = s.dirty
  | .st => t.st = s.st
  | .loaded => t.loaded = s.loaded
  | .cfg => t.cfg = s.cfg
  | .draws => t.draws = s.draws

/-- Every part outside `ps` is the same in `t` as in `s`. -/
def OnlyChanges (ps : List Part) (s t : State) : Prop := ∀ p : Part, p ∉ ps → SamePart s t p

/-- The parts an instruction may change, PC's own advance at the fetch apart (10_state.md R8 to R20, each "it is written
by"). -/
def mayChange : Instr → List Part
  | .cls => [.FB, .dirty]
  | .ret => [.PC, .stack, .st]
  | .jp _ => [.PC]
  | .call _ => [.PC, .stack, .st]
  | .seImm _ _ => [.PC]
  | .sneImm _ _ => [.PC]
  | .seReg _ _ _ => [.PC]
  | .ldImm _ _ => [.V]
  | .addImm _ _ => [.V]
  | .ldReg _ _ => [.V]
  | .orReg _ _ => [.V]
  | .andReg _ _ => [.V]
  | .xorReg _ _ => [.V]
  | .addReg _ _ => [.V]
  | .sub _ _ => [.V]
  | .shr _ _ => [.V]
  | .subn _ _ => [.V]
  | .shl _ _ => [.V]
  | .sneReg _ _ _ => [.PC]
  | .ldI _ => [.I]
  | .jpV _ _ => [.PC]
  | .rnd _ _ => [.V, .draws]
  | .drw _ _ _ => [.V, .FB, .dirty]
  | .skp _ => [.PC]
  | .sknp _ => [.PC]
  | .ldVDt _ => [.V]
  | .ldK _ => [.st]
  | .ldDt _ => [.DT]
  | .ldSt _ => [.ST]
  | .addI _ => [.I]
  | .ldF _ => [.I]
  | .bcd _ => [.memory]
  | .store _ => [.memory, .I]
  | .load _ => [.V, .I]

/-- Register `r` may be written by the instruction: its destination registers, and VF where it writes a flag (10_state.md
R9). -/
def mayWriteReg (c : Config) (r : Reg) : Instr → Prop
  | .ldImm x _ => r = x
  | .addImm x _ => r = x
  | .ldReg x _ => r = x
  | .orReg x _ => r = x ∨ (c.logicQuirkResetVf = true ∧ r = VF)
  | .andReg x _ => r = x ∨ (c.logicQuirkResetVf = true ∧ r = VF)
  | .xorReg x _ => r = x ∨ (c.logicQuirkResetVf = true ∧ r = VF)
  | .addReg x _ => r = x ∨ r = VF
  | .sub x _ => r = x ∨ r = VF
  | .shr x _ => r = x ∨ r = VF
  | .subn x _ => r = x ∨ r = VF
  | .shl x _ => r = x ∨ r = VF
  | .rnd x _ => r = x
  | .drw _ _ _ => r = VF
  | .ldVDt x => r = x
  | .load x => r ≤ x
  | .cls | .ret | .jp _ | .call _ | .seImm _ _ | .sneImm _ _ | .seReg _ _ _ | .sneReg _ _ _ | .ldI _ | .jpV _ _
  | .skp _ | .sknp _ | .ldK _ | .ldDt _ | .ldSt _ | .addI _ | .ldF _ | .bcd _ | .store _ => False

/-- Address `a` (below 4096) may be written by the instruction in state `s`: the bytes at I, I + 1, ... mod 4096 of Fx33
and Fx55 (20_memory.md R35). -/
def mayWriteByte (s : State) (a : Nat) : Instr → Prop
  | .bcd _ => ∃ k, k < 3 ∧ a = (s.I.toNat + k) % 4096
  | .store x => ∃ k, k ≤ x.val ∧ a = (s.I.toNat + k) % 4096
  | .cls | .ret | .jp _ | .call _ | .seImm _ _ | .sneImm _ _ | .seReg _ _ _ | .ldImm _ _ | .addImm _ _ | .ldReg _ _
  | .orReg _ _ | .andReg _ _ | .xorReg _ _ | .addReg _ _ | .sub _ _ | .shr _ _ | .subn _ _ | .shl _ _
  | .sneReg _ _ _ | .ldI _ | .jpV _ _ | .rnd _ _ | .drw _ _ _ | .skp _ | .sknp _ | .ldVDt _ | .ldK _ | .ldDt _
  | .ldSt _ | .addI _ | .ldF _ | .load _ => False

/-- `t` is `s` after a result and a flag: Vx holds `result` unless x is VF, VF holds 1 or 0 for `flag`, every other
register and every other part is as before (42_load_alu.md R63). -/
def WritesResultAndFlag (s t : State) (x : Reg) (result : Nat) (flag : Prop) : Prop :=
  (x ≠ VF → (t.getV x).toNat = result) ∧ (flag → t.getV VF = 1) ∧ (¬ flag → t.getV VF = 0) ∧
    (∀ r : Reg, r ≠ x → r ≠ VF → t.getV r = s.getV r) ∧ OnlyChanges [.V] s t

/-- `t` is `s` with Vx holding `result`, every other register and every other part as before. -/
def WritesRegister (s t : State) (x : Reg) (result : Nat) : Prop :=
  (t.getV x).toNat = result ∧ (∀ r : Reg, r ≠ x → t.getV r = s.getV r) ∧ OnlyChanges [.V] s t

/-- `t` is `s` with PC one word further when `cond` holds, everything else as before (40_pipeline.md R49). -/
def SkipsOneWordIf (s t : State) (cond : Prop) : Prop :=
  (cond → t.PC.toNat = (s.PC.toNat + 2) % 65536) ∧ (¬ cond → t.PC = s.PC) ∧ OnlyChanges [.PC] s t

/-- A lit sprite pixel of Dxyn in state `s`, in row `r` and column `c` of the sprite, falls on framebuffer pixel
`(px, py)` (43_draw.md R78). -/
def SpriteCovers (x y : Reg) (n : Fin 16) (s : State) (px : Fin 64) (py : Fin 32) : Prop :=
  ∃ r c : Nat, r < n.val ∧ c < 8 ∧ (s.readByte (s.I.toNat + r)).getLsbD (7 - c) = true ∧
    (s.cfg.drawClipMode = .clip → (s.getV x).toNat % 64 + c < 64 ∧ (s.getV y).toNat % 32 + r < 32) ∧
    px.val = ((s.getV x).toNat % 64 + c) % 64 ∧ py.val = ((s.getV y).toNat % 32 + r) % 32

/-- An instruction's write to address `a` (below 4096) is dropped by the font policy (20_memory.md R29). -/
def FontDropsWrite (c : Config) (a : Nat) : Prop :=
  c.fontWritePolicy = .discard ∧ c.fontBase.toNat ≤ a ∧ a < c.fontBase.toNat + 80

/-! ### Halted states -/

/-- The halt records of 60_exceptions.md R91 in the states that R92 allows them in: an instruction's halt keeps
`PC = addr + 2`, `dirty` false and the stack as it was. -/
def LegalHalt (s : State) (h : HaltRecord) : Prop :=
  match h.kind with
  | .invalidOpcode =>
    s.cfg.unknownOpcodePolicy = .strict ∧ s.loaded = true ∧ s.dirty = false ∧
      ∃ op a, h.opcode = some op ∧ h.addr = some a ∧ decode s.cfg.strict59 op = .unknown op ∧ s.PC = a + 2
  | .stackOverflow =>
    s.SP.val = 16 ∧ s.loaded = true ∧ s.dirty = false ∧
      ∃ nnn a, h.opcode = some (encode (.call nnn)) ∧ h.addr = some a ∧ s.PC = a + 2
  | .stackUnderflow =>
    s.SP.val = 0 ∧ s.loaded = true ∧ s.dirty = false ∧
      ∃ a, h.opcode = some 0x00EE ∧ h.addr = some a ∧ s.PC = a + 2
  | .programTooLarge =>
    s.loaded = true ∧ h.opcode = none ∧ ∃ base : Word, h.addr = some base ∧ 0x200 ≤ base.toNat ∧ base.toNat ≤ 0xFFF
  | .externalStop => h.opcode = none ∧ h.addr = none

/-! ### The invariant -/

/-- Under `discard` the font region reads as the font table: "immutable thereafter" (20_memory.md R27, R29). -/
def FontIntact (s : State) : Prop :=
  s.cfg.fontWritePolicy = .discard →
    ∀ k, k < 80 → s.readByte (s.cfg.fontBase.toNat + k) = Memory.font.getD k 0

/-- What every operation of the block keeps. -/
structure Inv (s : State) : Prop where
  cfg  : s.cfg.wf = true
  mem  : Memory.wf s.cfg.fontBase s.M = true
  font : FontIntact s
  halt : ∀ h, s.st = .halted h → LegalHalt s h
  wait : ∀ r, s.st = .awaitingKey r → s.loaded = true

/-- A safe state: the machine has not stopped on an error (60_exceptions.md R91 lists the errors; ExternalStop is the
host's own wish). -/
def ErrorFree (s : State) : Prop :=
  ∀ h, s.st = .halted h → h.kind = .externalStop

end Sys2Proof.Machine
end

