-- ==== Sys2Proof/Certificates/Slice0/Obligations.lean ====
section
/-! DEFINITION. The statements about the c8emu CORE block, from the numbered rules of spec/. -/

open Sys2Proof Sys2Proof.Machine

/-! ### Encoding and decoding (30_encoding.md) -/

/-- Decode and encode agree on every well-formed instruction, for both values of STRICT_5_9 (R42, R44, R45; the fields and
25 of the encodings are the spec's own, D33). -/
def Obligations.DecodeOfEncodeIsTheInstruction : Prop :=
  ∀ (strict59 : Bool) (i : Instr), i.WellFormed strict59 = true → decode strict59 (encode i) = .known i

/-- The other direction: a word that decodes to an instruction is that instruction's encoding, and the instruction is
well-formed (R44, R45). -/
def Obligations.EncodeOfDecodedInstructionIsTheWord : Prop :=
  ∀ (strict59 : Bool) (op : Word) (i : Instr),
    decode strict59 op = .known i → i.WellFormed strict59 = true ∧ encode i = op

/-- The decoder of R44 and the mask / match table of R45 are the same map: a decoded word matches its form's row, and a
word that matches a row decodes to that row's form. -/
def Obligations.DecoderAgreesWithOpcodeTable : Prop :=
  ∀ (strict59 : Bool) (op : Word),
    (∀ i, decode strict59 op = .known i → (rowOf strict59 i).matchesWord op = true) ∧
    (∀ row ∈ opcodeTable strict59, row.matchesWord op = true →
      ∃ i, decode strict59 op = .known i ∧ rowOf strict59 i = row)

/-- "The rows are pairwise disjoint (no word matches two rows)" (R45, the spec's own derivation). -/
def Obligations.NoWordMatchesTwoRows : Prop :=
  ∀ (strict59 : Bool) (op : Word), ∀ row ∈ opcodeTable strict59, ∀ row' ∈ opcodeTable strict59,
    row.matchesWord op = true → row'.matchesWord op = true → row = row'

/-- The Unknown words are exactly those R46 lists, by class and low nibble or low byte, and Unknown carries the raw word
(R44, R46; the choice of words is the spec's own, D8, D9, D10). -/
def Obligations.UnknownWordsAreThoseListed : Prop :=
  ∀ (strict59 : Bool) (op : Word),
    ((∃ op', decode strict59 op = .unknown op') ↔
      (op.toNat / 4096 = 0x0 ∧ op.toNat ≠ 0x00E0 ∧ op.toNat ≠ 0x00EE) ∨
      (op.toNat / 4096 = 0x8 ∧ op.toNat % 16 ∈ [0x8, 0x9, 0xA, 0xB, 0xC, 0xD, 0xF]) ∨
      (op.toNat / 4096 = 0xE ∧ op.toNat % 256 ∉ [0x9E, 0xA1]) ∨
      (op.toNat / 4096 = 0xF ∧ op.toNat % 256 ∉ [0x07, 0x0A, 0x15, 0x18, 0x1E, 0x29, 0x33, 0x55, 0x65]) ∨
      (strict59 = true ∧ (op.toNat / 4096 = 0x5 ∨ op.toNat / 4096 = 0x9) ∧ op.toNat % 16 ≠ 0)) ∧
    (∀ op', decode strict59 op = .unknown op' → op' = op)

/-- Words written out from the patterns of R45, one per family, decode to the instructions they stand for. -/
def Obligations.WordsOfEachFamilyDecode : Prop :=
  decode false 0x2ABC = .known (.call 0xABC) ∧ decode false 0x00EE = .known .ret ∧
  decode false 0x3A42 = .known (.seImm 0xA 0x42) ∧ decode false 0x8124 = .known (.addReg 1 2) ∧
  decode false 0x812E = .known (.shl 1 2) ∧ decode false 0xC30F = .known (.rnd 3 0x0F) ∧
  decode false 0xD125 = .known (.drw 1 2 5) ∧ decode false 0xE5A1 = .known (.sknp 5) ∧
  decode false 0xF70A = .known (.ldK 7) ∧ decode false 0xF255 = .known (.store 2) ∧
  decode false 0xB2F0 = .known (.jpV 2 0x2F0) ∧ decode true 0x5121 = .unknown 0x5121

/-! ### The step (40_pipeline.md) -/

/-- A step in Running executes the instruction that the two bytes at PC decode to, with dirty cleared, loaded set and PC
past the word (R48; dirty and loaded are the spec's decisions D18, D20, the mod-2^16 advance D5). -/
def Obligations.StepRunsTheDecodedInstruction : Prop :=
  ∀ (s : State) (i : Instr), s.st = .running →
    decode s.cfg.strict59 (opcodeOfBytes (s.readByte s.PC.toNat) (s.readByte (s.PC.toNat + 1))) = .known i →
    step s = exec i { s with dirty := false, loaded := true, PC := s.PC + 2 }

/-- Instruction fetch is big-endian at PC mod 4096 and PC + 1 mod 4096; at PC = 0xFFF it reads M[0xFFF] and M[0x000]
(20_memory.md R32). -/
def Obligations.FetchIsBigEndian : Prop :=
  ∀ s : State,
    s.fetch.toNat =
      (s.readByte (s.PC.toNat % 4096)).toNat * 256 + (s.readByte ((s.PC.toNat + 1) % 4096)).toNat ∧
    (s.PC = 0xFFF → s.fetch.toNat = (s.readByte 0xFFF).toNat * 256 + (s.readByte 0x000).toNat)

/-- An Unknown word halts with InvalidOpcode under strict and is a no-op under lenient; either way only PC's advance and
the step's own flags happen besides (R54, R92; the halted PC, dirty and the record are the spec's decisions D16, D18,
the lenient advance D29). -/
def Obligations.UnknownWordHaltsOrIsANoOp : Prop :=
  ∀ (s : State) (op : Word), s.st = .running → decode s.cfg.strict59 s.fetch = .unknown op →
    ∃ t, step s = .next t ∧ t.PC = s.PC + 2 ∧ t.dirty = false ∧ t.loaded = true ∧
      OnlyChanges [.PC, .st, .dirty, .loaded] s t ∧
      (s.cfg.unknownOpcodePolicy = .strict → t.st = .halted ⟨.invalidOpcode, some op, some s.PC⟩) ∧
      (s.cfg.unknownOpcodePolicy = .lenient → t.st = .running)

/-- No step faults and none is refused, in any state (R44, R50: the decoder is total and every form has a rule). -/
def Obligations.EveryStepGivesANextState : Prop :=
  ∀ s : State, ∃ t, step s = .next t

/-- "The only way out of Halted is the host's reset()": every other operation that is answered, a step and a program load
among them, leaves the machine halted, with its first record but for a load before the first step that is too large; and
reset gives the state of initialisation, in Running (60_exceptions.md R94, R93, 20_memory.md R40). That a load in Halted
follows R40's pseudocode is log 21, what initialisation holds is R104 with log 3 to log 6, and keeping the parameters is the
spec's decision D25. -/
def Obligations.OnlyResetLeavesHalted : Prop :=
  ∀ (s : State) (h : HaltRecord), s.st = .halted h →
    (∀ (op : HostOp) (t : State), op ≠ .reset → applyOp op s = .next t →
      t.st = .halted h ∨
      ∃ bytes base, op = .loadProgram bytes base ∧ s.loaded = false ∧ 4096 < loadBase s.cfg base + bytes.length ∧
        t.st = .halted ⟨.programTooLarge, none, some (BitVec.ofNat 16 (loadBase s.cfg base))⟩) ∧
    (∃ t, applyOp .reset s = .next t ∧ t = State.initial s.cfg s.draws ∧ t.st = .running)

/-- A halted machine executes no instruction: each operation but reset changes nothing but what it writes itself, and keeps
the halt record, a load before the first step that is too large excepted (R52, R98, R17, R95, R93, R40, of which D16, D19,
D24, D27 and D20 are the spec's decisions; a load in Halted follows R40's pseudocode: log 21). -/
def Obligations.HaltedMachineKeepsItsRecord : Prop :=
  ∀ (s t : State) (h : HaltRecord) (op : HostOp), s.st = .halted h → op ≠ .reset → applyOp op s = .next t →
    (op = .step → OnlyChanges [.dirty, .loaded] s t) ∧ (op = .tickTimers → OnlyChanges [.DT, .ST] s t) ∧
    (∀ k p, op = .setKey k p → OnlyChanges [.K] s t) ∧ (op = .stop → t = s) ∧
    (∀ bytes base, op = .loadProgram bytes base → s.loaded = false ∧
      (loadBase s.cfg base + bytes.length ≤ 4096 → OnlyChanges [.memory, .PC, .loaded] s t) ∧
      (4096 < loadBase s.cfg base + bytes.length → OnlyChanges [.st, .loaded] s t)) ∧
    ((∀ bytes base, op = .loadProgram bytes base → loadBase s.cfg base + bytes.length ≤ 4096) → t.st = .halted h)

/-- A running step halts only on an Unknown word under strict, on a call with 16 entries in use, or on a return with none,
each with its kind (60_exceptions.md R91, R93, the latter the spec's own derivation). -/
def Obligations.StepErrorsHaveThreeCauses : Prop :=
  ∀ (s t : State) (h : HaltRecord), s.st = .running → step s = .next t → t.st = .halted h →
    (h.kind = .invalidOpcode ∧ s.cfg.unknownOpcodePolicy = .strict ∧ decode s.cfg.strict59 s.fetch = .unknown s.fetch) ∨
    (h.kind = .stackOverflow ∧ s.SP.val = 16 ∧ ∃ nnn, decode s.cfg.strict59 s.fetch = .known (.call nnn)) ∨
    (h.kind = .stackUnderflow ∧ s.SP.val = 0 ∧ decode s.cfg.strict59 s.fetch = .known .ret)

/-- A jump to itself stays in Running and re-executes on every step, for any number of steps (R53, R56). -/
def Obligations.JumpToSelfRunsForever : Prop :=
  ∀ (n : Nat) (s : State) (nnn : Addr), s.st = .running → s.PC.toNat = nnn.toNat →
    decode s.cfg.strict59 s.fetch = .known (.jp nnn) →
    ∃ t, Host.Core.run Sys2Proof.core n s = .next t ∧ t.PC = s.PC ∧ t.st = .running ∧
      OnlyChanges [.dirty, .loaded] s t

/-- The dirty flag after a step is true exactly when the step executed 00E0 or Dxyn (10_state.md R19; the lifetime is the
spec's decision D18). -/
def Obligations.DirtyAfterAStepMeansADraw : Prop :=
  ∀ s t : State, step s = .next t →
    (t.dirty = true ↔ s.st = .running ∧
      (decode s.cfg.strict59 s.fetch = .known .cls ∨
        ∃ x y n, decode s.cfg.strict59 s.fetch = .known (.drw x y n)))

/-- No step advances a timer, changes a key or a parameter: DT and ST change only by Fx15 and Fx18 (10_state.md R15, R17;
40_pipeline.md R48; 00_scope.md R4). -/
def Obligations.StepDoesNotTickKeysOrParameters : Prop :=
  ∀ s t : State, step s = .next t →
    t.cfg = s.cfg ∧ (∀ k : Key, t.K[k] = s.K[k]) ∧
    (t.DT ≠ s.DT → s.st = .running ∧ ∃ x, decode s.cfg.strict59 s.fetch = .known (.ldDt x)) ∧
    (t.ST ≠ s.ST → s.st = .running ∧ ∃ x, decode s.cfg.strict59 s.fetch = .known (.ldSt x))

/-! ### Frames -/

/-- What each instruction leaves unchanged: every part of the state outside its list, every register that is not a
destination (or VF where it writes a flag), and every byte of memory outside the bytes it stores, which are those at I,
I + 1, ... mod 4096 (10_state.md R9 to R20 "it is written by"; 20_memory.md R35). -/
def Obligations.EveryInstructionKeepsItsFrame : Prop :=
  ∀ (i : Instr) (s t : State), exec i s = .next t →
    OnlyChanges (mayChange i) s t ∧
    (∀ r : Reg, ¬ mayWriteReg s.cfg r i → t.getV r = s.getV r) ∧
    (∀ a, a < 4096 → ¬ mayWriteByte s a i → t.readByte a = s.readByte a)

/-- Only Ex9E and ExA1 read the input latch: any other instruction does the same whatever keys are pressed
(10_state.md R17; 60_exceptions.md R96). -/
def Obligations.OtherInstructionsIgnoreTheLatch : Prop :=
  ∀ (i : Instr) (s t : State) (K' : Vector Bool 16), (∀ x, i ≠ .skp x) → (∀ x, i ≠ .sknp x) →
    exec i s = .next t → exec i { s with K := K' } = .next { t with K := K' }

/-! ### Control flow (41_control_flow.md) -/

/-- 1nnn and Bnnn: PC is nnn, or nnn plus V0 (legacy) or Vx (modern), kept in 16 bits (R56, R62; not reducing the sum is
the spec's decision D5). -/
def Obligations.JumpsWriteTheirTarget : Prop :=
  ∀ (s : State) (x : Reg) (nnn : Addr),
    (∃ t, exec (.jp nnn) s = .next t ∧ t.PC.toNat = nnn.toNat ∧ OnlyChanges [.PC] s t) ∧
    (∃ t, exec (.jpV x nnn) s = .next t ∧ OnlyChanges [.PC] s t ∧
      (s.cfg.jumpOffsetMode = .legacy → t.PC.toNat = nnn.toNat + (s.getV 0).toNat) ∧
      (s.cfg.jumpOffsetMode = .modern → t.PC.toNat = nnn.toNat + (s.getV x).toNat))

/-- `push(a)`: with 16 entries in use it fails, its one user 2nnn with StackOverflow, and changes nothing; otherwise
`S[SP] <- a; SP <- SP + 1` and nothing else (10_state.md R13). -/
def Obligations.PushFillsTheNextEntryOrFails : Prop :=
  ∀ (s : State) (a : Word),
    (s.SP.val = 16 → s.push a = none ∧ ∀ nnn, ∃ t h, exec (.call nnn) s = .next t ∧ t.st = .halted h ∧
      h.kind = .stackOverflow ∧ OnlyChanges [.st] s t) ∧
    (∀ h : s.SP.val < 16, ∃ t, s.push a = some t ∧ t.S[s.SP.val] = a ∧ t.SP.val = s.SP.val + 1 ∧
      (∀ j : Fin 16, j.val ≠ s.SP.val → t.S[j] = s.S[j]) ∧ OnlyChanges [.stack] s t)

/-- 2nnn: with fewer than 16 entries in use it pushes the advanced PC and jumps; with 16 it halts with StackOverflow and
changes nothing else (R57; 10_state.md R13; the pushed value and the record are the spec's own, R48 and D16). -/
def Obligations.CallPushesOrOverflows : Prop :=
  ∀ (s : State) (nnn : Addr),
    (∀ h : s.SP.val < 16, ∃ t, exec (.call nnn) s = .next t ∧ t.PC.toNat = nnn.toNat ∧ t.SP.val = s.SP.val + 1 ∧
      t.S[s.SP.val] = s.PC ∧ (∀ j : Fin 16, j.val ≠ s.SP.val → t.S[j] = s.S[j]) ∧
      OnlyChanges [.PC, .stack] s t) ∧
    (s.SP.val = 16 → ∃ t, exec (.call nnn) s = .next t ∧
      t.st = .halted ⟨.stackOverflow, some (encode (.call nnn)), some (s.PC - 2)⟩ ∧ OnlyChanges [.st] s t)

/-- 00EE: with an entry in use it pops it into PC, as pushed, leaving the entry; with none it halts with StackUnderflow and
changes nothing else (R55; 10_state.md R14; not clearing the entry and the record are the spec's decisions D28, D16). -/
def Obligations.ReturnPopsOrUnderflows : Prop :=
  ∀ s : State,
    (∀ (p : Nat) (h : s.SP.val = p + 1) (hp : p < 16), ∃ t, exec .ret s = .next t ∧ t.SP.val = p ∧ t.PC = s.S[p] ∧
      (∀ j : Fin 16, t.S[j] = s.S[j]) ∧ OnlyChanges [.PC, .stack] s t) ∧
    (s.SP.val = 0 → ∃ t, exec .ret s = .next t ∧
      t.st = .halted ⟨.stackUnderflow, some 0x00EE, some (s.PC - 2)⟩ ∧ OnlyChanges [.st] s t)

/-- "CALL followed by RETURN restores PC to the instruction immediately after the original CALL, and stack pointer returns
to its pre-CALL value" (R57), the return being executed with PC anywhere. -/
def Obligations.CallThenReturnRestoresPC : Prop :=
  ∀ (s : State) (nnn : Addr) (pc : Word), s.SP.val < 16 →
    ∃ t u, exec (.call nnn) s = .next t ∧ exec .ret { t with PC := pc } = .next u ∧ u.PC = s.PC ∧ u.SP = s.SP ∧
      OnlyChanges [.stack] s u

/-- 3xnn, 4xnn, 5xyn and 9xyn skip exactly one word when their comparison holds, whatever the low nibble of the last two
is (R58 to R61; ignoring the low nibble is the spec's decision D9). -/
def Obligations.ComparisonsSkipOneWord : Prop :=
  ∀ (s : State) (x y : Reg) (nn : Byte) (n : Nibble),
    (∃ t, exec (.seImm x nn) s = .next t ∧ SkipsOneWordIf s t (s.getV x = nn)) ∧
    (∃ t, exec (.sneImm x nn) s = .next t ∧ SkipsOneWordIf s t (s.getV x ≠ nn)) ∧
    (∃ t, exec (.seReg x y n) s = .next t ∧ SkipsOneWordIf s t (s.getV x = s.getV y)) ∧
    (∃ t, exec (.sneReg x y n) s = .next t ∧ SkipsOneWordIf s t (s.getV x ≠ s.getV y))

/-! ### Loads, ALU, random (42_load_alu.md) -/

/-- 6xnn and 8xy0 (R65, R67). -/
def Obligations.LoadsWriteOneRegister : Prop :=
  ∀ (s : State) (x y : Reg) (nn : Byte),
    (∃ t, exec (.ldImm x nn) s = .next t ∧ WritesRegister s t x nn.toNat) ∧
    (∃ t, exec (.ldReg x y) s = .next t ∧ WritesRegister s t x (s.getV y).toNat)

/-- 7xnn wraps mod 256 and writes no flag, even on overflow (R66; VF unchanged is the spec's decision D11). -/
def Obligations.AddImmediateWrapsWithoutFlag : Prop :=
  ∀ (s : State) (x : Reg) (nn : Byte),
    ∃ t, exec (.addImm x nn) s = .next t ∧ WritesRegister s t x (((s.getV x).toNat + nn.toNat) % 256)

/-- 8xy1, 8xy2, 8xy3: bit `j` of the result is the OR, AND or XOR of the operands' bits; with `logic_quirk_reset_vf` VF is 0
afterwards, even when x is VF, and without it VF is as any other register (R68, R69, R70). -/
def Obligations.LogicInstructionsFollowTheQuirk : Prop :=
  ∀ (s : State) (x y : Reg) (i : Instr) (f : Bool → Bool → Bool),
    (i = .orReg x y ∧ f = or) ∨ (i = .andReg x y ∧ f = and) ∨ (i = .xorReg x y ∧ f = xor) →
    ∃ t, exec i s = .next t ∧ OnlyChanges [.V] s t ∧
      (s.cfg.logicQuirkResetVf = true → t.getV VF = 0) ∧
      (x ≠ VF ∨ s.cfg.logicQuirkResetVf = false →
        ∀ j, j < 8 → (t.getV x).getLsbD j = f ((s.getV x).getLsbD j) ((s.getV y).getLsbD j)) ∧
      (∀ r : Reg, r ≠ x → (r ≠ VF ∨ s.cfg.logicQuirkResetVf = false) → t.getV r = s.getV r)

/-- 8xy4, 8xy5, 8xy7: sum and carry, difference and NOT borrow (equal operands are no borrow), with both operands taken
before any write and the flag written last, so VF as x holds the flag (R71, R72, R73, R63; the order is the spec's
decision D22, SUBN's operand order general knowledge). -/
def Obligations.AddAndSubtractWriteResultThenFlag : Prop :=
  ∀ (s : State) (x y : Reg) (vx vy : Nat), vx = (s.getV x).toNat → vy = (s.getV y).toNat →
    (∃ t, exec (.addReg x y) s = .next t ∧ WritesResultAndFlag s t x ((vx + vy) % 256) (vx + vy > 255)) ∧
    (∃ t, exec (.sub x y) s = .next t ∧
      WritesResultAndFlag s t x (if vy ≤ vx then vx - vy else 256 + vx - vy) (vy ≤ vx)) ∧
    (∃ t, exec (.subn x y) s = .next t ∧
      WritesResultAndFlag s t x (if vx ≤ vy then vy - vx else 256 + vy - vx) (vx ≤ vy))

/-- 8xy6 and 8xyE: one bit, from Vy in legacy mode and from Vx in modern mode, the bit shifted out in VF (R74, R75). -/
def Obligations.ShiftsMoveOneBit : Prop :=
  ∀ (s : State) (x y : Reg) (src : Nat),
    (s.cfg.shiftMode = .legacy → src = (s.getV y).toNat) → (s.cfg.shiftMode = .modern → src = (s.getV x).toNat) →
    (∃ t, exec (.shr x y) s = .next t ∧ WritesResultAndFlag s t x (src / 2) (src % 2 = 1)) ∧
    (∃ t, exec (.shl x y) s = .next t ∧ WritesResultAndFlag s t x (2 * src % 256) (128 ≤ src))

/-- Cxnn: Vx is the byte drawn AND nn, bit by bit; one byte is drawn per execution (R76; the byte is free, D23, log 6). -/
def Obligations.RandomByteIsMasked : Prop :=
  ∀ (s : State) (x : Reg) (nn : Byte),
    ∃ t, exec (.rnd x nn) s = .next t ∧ t.draws = s.draws + 1 ∧ OnlyChanges [.V, .draws] s t ∧
      (∀ j, j < 8 → (t.getV x).getLsbD j = (nn.getLsbD j && (Config.randomByte s.draws).getLsbD j)) ∧
      (∀ r : Reg, r ≠ x → t.getV r = s.getV r)

/-! ### Framebuffer (43_draw.md) -/

/-- 00E0 clears every pixel and sets dirty (R77). -/
def Obligations.ClearScreenClearsEveryPixel : Prop :=
  ∀ s : State, ∃ t, exec .cls s = .next t ∧
    (∀ (px : Fin 64) (py : Fin 32), State.pixel t.FB px py = false) ∧ t.dirty = true ∧ OnlyChanges [.FB, .dirty] s t

/-- Dxyn: a pixel is inverted exactly when a lit sprite pixel falls on it (wrapped start, clip or wrap past the edges),
VF is 1 exactly when one of those was lit, dirty is set even for n = 0 (R78; bit 7 leftmost is the spec's D26). -/
def Obligations.DrawInvertsCoveredPixels : Prop :=
  ∀ (s : State) (x y : Reg) (n : Fin 16),
    ∃ t, exec (.drw x y n) s = .next t ∧ t.dirty = true ∧ OnlyChanges [.V, .FB, .dirty] s t ∧
      (∀ (px : Fin 64) (py : Fin 32),
        (SpriteCovers x y n s px py → State.pixel t.FB px py = !State.pixel s.FB px py) ∧
        (¬ SpriteCovers x y n s px py → State.pixel t.FB px py = State.pixel s.FB px py)) ∧
      ((∃ px py, SpriteCovers x y n s px py ∧ State.pixel s.FB px py = true) → t.getV VF = 1) ∧
      ((¬ ∃ px py, SpriteCovers x y n s px py ∧ State.pixel s.FB px py = true) → t.getV VF = 0) ∧
      (∀ r : Reg, r ≠ VF → t.getV r = s.getV r)

/-- Drawing the same sprite at the same place twice restores the framebuffer and every register but VF; the second
draw reports a collision exactly when some covered pixel was clear before the first (R78; for a sprite all of whose pixels
were lit, R78's remark and its pseudocode differ: log 32). -/
def Obligations.DrawingTwiceRestoresTheFramebuffer : Prop :=
  ∀ (s : State) (x y : Reg) (n : Fin 16), x ≠ VF → y ≠ VF →
    ∃ t u, exec (.drw x y n) s = .next t ∧ exec (.drw x y n) t = .next u ∧
      (∀ (px : Fin 64) (py : Fin 32), State.pixel u.FB px py = State.pixel s.FB px py) ∧
      (u.getV VF = 1 ↔ ∃ px py, SpriteCovers x y n s px py ∧ State.pixel s.FB px py = false) ∧
      (∀ r : Reg, r ≠ VF → u.getV r = s.getV r) ∧
      OnlyChanges [.V, .dirty] s u

/-! ### Keys (44_keys.md) -/

/-- Ex9E and ExA1 skip on key V[x] mod 16 being pressed, not pressed (R79, R80; the reduction is the spec's decision
D14). -/
def Obligations.KeySkipsReadTheLatch : Prop :=
  ∀ (s : State) (x : Reg) (k : Key), k.val = (s.getV x).toNat % 16 →
    (∃ t, exec (.skp x) s = .next t ∧ SkipsOneWordIf s t (s.K[k] = true)) ∧
    (∃ t, exec (.sknp x) s = .next t ∧ SkipsOneWordIf s t (s.K[k] = false))

/-- Fx0A enters AwaitingKey(x) whatever the keys are, and writes nothing else (R81; D15). -/
def Obligations.AwaitKeyEntersTheWait : Prop :=
  ∀ (s : State) (x : Reg), ∃ t, exec (.ldK x) s = .next t ∧ t.st = .awaitingKey x ∧ OnlyChanges [.st] s t

/-- A step in AwaitingKey(r): with no key pressed it stays there and changes nothing else; with keys pressed the lowest
one goes to V[r] and the executor runs again; PC does not move and nothing is fetched (40_pipeline.md R51; 60_exceptions.md
R103; the lowest key and the level are the spec's decision D15). -/
def Obligations.PollTakesTheLowestPressedKey : Prop :=
  ∀ (s : State) (r : Reg), s.st = .awaitingKey r →
    ((∀ k : Key, s.K[k] = false) →
      ∃ t, step s = .next t ∧ t.st = .awaitingKey r ∧ t.dirty = false ∧ t.loaded = true ∧
        OnlyChanges [.dirty, .loaded] s t) ∧
    (∀ k : Key, s.K[k] = true → (∀ j : Key, j < k → s.K[j] = false) →
      ∃ t, step s = .next t ∧ t.st = .running ∧ (t.getV r).toNat = k.val ∧ t.dirty = false ∧ t.loaded = true ∧
        (∀ r' : Reg, r' ≠ r → t.getV r' = s.getV r') ∧ OnlyChanges [.V, .st, .dirty, .loaded] s t)

/-- A wait for a key is entered only by a step that runs Fx0A, and left only by a step with a key pressed, by reset or by
stop (10_state.md R20). -/
def Obligations.WaitIsEnteredByFx0AAndLeftByAKey : Prop :=
  ∀ (op : HostOp) (s t : State), Inv s → applyOp op s = .next t →
    (∀ r, t.st = .awaitingKey r → s.st = .awaitingKey r ∨
      (op = .step ∧ s.st = .running ∧ decode s.cfg.strict59 s.fetch = .known (.ldK r))) ∧
    (∀ r, s.st = .awaitingKey r → t.st ≠ .awaitingKey r →
      op = .reset ∨ op = .stop ∨ (op = .step ∧ ∃ k : Key, s.K[k] = true))

/-! ### Timers, index, transfers (45_timers_index_memory.md) -/

/-- Fx07, Fx15, Fx18 (R82, R83, R84). -/
def Obligations.TimerInstructionsMoveBytes : Prop :=
  ∀ (s : State) (x : Reg),
    (∃ t, exec (.ldVDt x) s = .next t ∧ WritesRegister s t x s.DT.toNat) ∧
    (∃ t, exec (.ldDt x) s = .next t ∧ t.DT = s.getV x ∧ OnlyChanges [.DT] s t) ∧
    (∃ t, exec (.ldSt x) s = .next t ∧ t.ST = s.getV x ∧ (soundActive t = true ↔ s.getV x ≠ 0) ∧
      OnlyChanges [.ST] s t)

/-- Annn, Fx1E, Fx29: nnn; I + Vx mod 2^16 with no flag; FONT_BASE + 5 * (Vx mod 16) (R85, R86, R87; the widths, the
missing flag and the low nibble are the spec's decisions D6, D12, D13, FONT_BASE its parameter D1). -/
def Obligations.IndexInstructionsWriteI : Prop :=
  ∀ (s : State) (x : Reg) (nnn : Addr),
    (∃ t, exec (.ldI nnn) s = .next t ∧ t.I.toNat = nnn.toNat ∧ OnlyChanges [.I] s t) ∧
    (∃ t, exec (.addI x) s = .next t ∧ t.I.toNat = (s.I.toNat + (s.getV x).toNat) % 65536 ∧ OnlyChanges [.I] s t) ∧
    (∃ t, exec (.ldF x) s = .next t ∧ t.I.toNat = s.cfg.fontBase.toNat + 5 * ((s.getV x).toNat % 16) ∧
      OnlyChanges [.I] s t)

/-- Fx33 stores hundreds, tens and units at I, I + 1, I + 2 mod 4096, a byte the font policy drops excepted, and changes
nothing else (R88; 20_memory.md R29, whose policy is the spec's parameter D3). The byte values need the memory's canonical
form, which every operation keeps. -/
def Obligations.BcdStoresThreeDigits : Prop :=
  ∀ (s : State) (x : Reg) (v : Nat), v = (s.getV x).toNat →
    ∃ t, exec (.bcd x) s = .next t ∧ OnlyChanges [.memory] s t ∧
      (∀ a, a < 4096 → a ≠ s.I.toNat % 4096 → a ≠ (s.I.toNat + 1) % 4096 → a ≠ (s.I.toNat + 2) % 4096 →
        t.readByte a = s.readByte a) ∧
      (Memory.wf s.cfg.fontBase s.M = true → ∀ k a, k < 3 → a = (s.I.toNat + k) % 4096 →
        (FontDropsWrite s.cfg a → t.readByte a = s.readByte a) ∧
        (¬ FontDropsWrite s.cfg a → (t.readByte a).toNat = v / 10 ^ (2 - k) % 10))

/-- Fx55 stores V0..Vx at I, I + 1, ... mod 4096, a byte the font policy drops excepted; I moves by x + 1 mod 2^16 exactly
when `save_load_increments_i` (R89; 20_memory.md R29, D3). -/
def Obligations.StoreWritesRegistersToMemory : Prop :=
  ∀ (s : State) (x : Reg),
    ∃ t, exec (.store x) s = .next t ∧ OnlyChanges [.memory, .I] s t ∧
      (s.cfg.saveLoadIncrementsI = true → t.I.toNat = (s.I.toNat + x.val + 1) % 65536) ∧
      (s.cfg.saveLoadIncrementsI = false → t.I = s.I) ∧
      (∀ a, a < 4096 → (∀ k, k ≤ x.val → a ≠ (s.I.toNat + k) % 4096) → t.readByte a = s.readByte a) ∧
      (Memory.wf s.cfg.fontBase s.M = true → ∀ (r : Reg) (a : Nat), r ≤ x → a = (s.I.toNat + r.val) % 4096 →
        (FontDropsWrite s.cfg a → t.readByte a = s.readByte a) ∧
        (¬ FontDropsWrite s.cfg a → t.readByte a = s.getV r))

/-- Fx65 (mask F0FF, x in bits 11..8) loads V0..Vx from I, I + 1, ... mod 4096 and leaves the registers above and every
other part; I moves by x + 1 mod 2^16, from its value before the loads, exactly when `save_load_increments_i`
(45_timers_index_memory.md R90). -/
def Obligations.LoadReadsRegistersFromMemory : Prop :=
  (∀ (strict59 : Bool) (op : Word) (x : Reg), op &&& 0xF0FF = 0xF065 → x.val = op.toNat / 256 % 16 →
    decode strict59 op = .known (.load x)) ∧
  ∀ (s : State) (x : Reg),
    ∃ t, exec (.load x) s = .next t ∧ OnlyChanges [.V, .I] s t ∧
      (∀ r : Reg, r ≤ x → t.getV r = s.readByte ((s.I.toNat + r.val) % 4096)) ∧
      (∀ r : Reg, x < r → t.getV r = s.getV r) ∧
      (s.cfg.saveLoadIncrementsI = true → t.I.toNat = (s.I.toNat + x.val + 1) % 65536) ∧
      (s.cfg.saveLoadIncrementsI = false → t.I = s.I)

/-- Fx55 and then Fx65 from the same I bring the stored registers back into any register file, where no byte of the range
is dropped by the font policy (R89, R90). -/
def Obligations.StoreThenLoadRestoresRegisters : Prop :=
  ∀ (s t u : State) (x : Reg), Memory.wf s.cfg.fontBase s.M = true →
    (∀ k, k ≤ x.val → ¬ FontDropsWrite s.cfg ((s.I.toNat + k) % 4096)) →
    exec (.store x) s = .next t → (∀ a, u.readByte a = t.readByte a) → u.I = s.I →
    ∃ w, exec (.load x) u = .next w ∧ ∀ r : Reg, r ≤ x → w.getV r = s.getV r

/-- Fx55 over the next instruction changes what the next step fetches, with no barrier (20_memory.md R39, the spec's own
derivation). -/
def Obligations.StoreIsSeenByTheNextFetch : Prop :=
  ∀ (s : State) (x : Reg), Memory.wf s.cfg.fontBase s.M = true → 1 ≤ x.val →
    s.I.toNat % 4096 = s.PC.toNat % 4096 → ¬ FontDropsWrite s.cfg (s.PC.toNat % 4096) →
    ¬ FontDropsWrite s.cfg ((s.PC.toNat + 1) % 4096) →
    ∃ t, exec (.store x) s = .next t ∧ t.PC = s.PC ∧ t.fetch = opcodeOfBytes (s.getV 0) (s.getV 1)

/-! ### Memory primitives (20_memory.md) -/

/-- `MemRead(a, n)`: bytes at a, a + 1, ..., each address mod 4096, the first most significant; it depends on nothing but
those bytes, so it gives the same value until one of them changes (R30). -/
def Obligations.MemReadIsBigEndianModulo4096 : Prop :=
  ∀ (s : State) (a n : Nat),
    (s.memRead a (n + 1)).toNat = (s.memRead a n).toNat * 256 + (s.readByte ((a + n) % 4096)).toNat ∧
    (s.memRead a 1).toNat = (s.readByte (a % 4096)).toNat ∧
    (∀ t : State, (∀ k, k < n → t.readByte ((a + k) % 4096) = s.readByte ((a + k) % 4096)) →
      t.memRead a n = s.memRead a n)

/-- `MemWrite(a, n, v)`: byte k, most significant first, at (a + k) mod 4096, a byte the font policy drops excepted; no
other byte changes (R31, R29; the policy is the spec's parameter D3). -/
def Obligations.MemWriteIsBigEndianUnderTheFontPolicy : Prop :=
  ∀ (s : State) (a n : Nat) (v : BitVec (8 * n)), n ≤ 4096 →
    OnlyChanges [.memory] s (s.memWrite a n v) ∧
    (∀ b, b < 4096 → (∀ k, k < n → b ≠ (a + k) % 4096) → (s.memWrite a n v).readByte b = s.readByte b) ∧
    (Memory.wf s.cfg.fontBase s.M = true → ∀ k b, k < n → b = (a + k) % 4096 →
      (FontDropsWrite s.cfg b → (s.memWrite a n v).readByte b = s.readByte b) ∧
      (¬ FontDropsWrite s.cfg b →
        ((s.memWrite a n v).readByte b).toNat = v.toNat / 2 ^ (8 * (n - 1 - k)) % 256))

/-- The memory's canonical form is canonical: two memories that read the same at every address are the same data (the
model's representation of R24, log 10). -/
def Obligations.EqualReadingsAreEqualMemories : Prop :=
  ∀ s t : State, Memory.wf s.cfg.fontBase s.M = true → Memory.wf t.cfg.fontBase t.M = true →
    s.cfg.fontBase = t.cfg.fontBase → (∀ a, a < 4096 → s.readByte a = t.readByte a) → s.M = t.M

/-! ### Host operations (60_exceptions.md, 20_memory.md, 10_state.md, 70_reset_and_hazards.md) -/

/-- n calls of tick_timers() lower each timer by n, never below 0, in any executor state, and change nothing else
(60_exceptions.md R98; acting in every state is the spec's decision D19). -/
def Obligations.TicksCountDownToZero : Prop :=
  ∀ (n : Nat) (s : State), ∃ t, runOps (List.replicate n .tickTimers) s = .next t ∧
    t.DT.toNat = s.DT.toNat - n ∧ t.ST.toNat = s.ST.toNat - n ∧ OnlyChanges [.DT, .ST] s t

/-- `sound_active` is ST > 0 at every instant (10_state.md R16). -/
def Obligations.SoundIsActiveWhileSTIsPositive : Prop :=
  ∀ s : State, soundActive s = true ↔ s.ST.toNat > 0

/-- set_key(k, pressed) sets one key, in any executor state; the last write wins (10_state.md R17; D24). -/
def Obligations.SetKeyWritesOneKey : Prop :=
  ∀ (s : State) (k : Key) (p q : Bool),
    ∃ t u, applyOp (.setKey k p) s = .next t ∧ applyOp (.setKey k q) t = .next u ∧ t.K[k] = p ∧ u.K[k] = q ∧
      (∀ j : Key, j ≠ k → u.K[j] = s.K[j]) ∧ OnlyChanges [.K] s u

/-- stop() halts with ExternalStop and changes nothing else; in Halted it changes nothing (60_exceptions.md R95, the spec's
decision D27). -/
def Obligations.StopHaltsOnce : Prop :=
  ∀ s : State,
    ((∀ h, s.st ≠ .halted h) →
      ∃ t, applyOp .stop s = .next t ∧ t.st = .halted ⟨.externalStop, none, none⟩ ∧ OnlyChanges [.st] s t) ∧
    (∀ h, s.st = .halted h → applyOp .stop s = .next s)

/-- load_program: refused when used up, after a step or outside 0x200..0xFFF; ProgramTooLarge halts and leaves memory and
PC; otherwise the bytes are copied verbatim and PC is the base. The base is the one given, else LOAD_ADDR (20_memory.md R40,
00_scope.md R4; admission and the unchanged memory are the spec's decision D20, LOAD_ADDR as the default base its D31). That
a load in Halted follows R40's pseudocode, and that a base is any natural number, is log 21. -/
def Obligations.LoadProgramCopiesOrHalts : Prop :=
  ∀ (s : State) (bytes : List Byte) (given : Option Nat) (base : Nat),
    given = some base ∨ (given = none ∧ base = s.cfg.loadAddr.toNat) →
    (s.loaded = true ∨ base < 0x200 ∨ 0xFFF < base →
      applyOp (.loadProgram bytes given) s = .refused .loadNotAdmitted) ∧
    (s.loaded = false → 0x200 ≤ base → base ≤ 0xFFF →
      (4096 < base + bytes.length →
        ∃ t, applyOp (.loadProgram bytes given) s = .next t ∧ t.loaded = true ∧ OnlyChanges [.st, .loaded] s t ∧
          t.st = .halted ⟨.programTooLarge, none, some (BitVec.ofNat 16 base)⟩) ∧
      (base + bytes.length ≤ 4096 →
        ∃ t, applyOp (.loadProgram bytes given) s = .next t ∧ t.loaded = true ∧ t.PC.toNat = base ∧
          OnlyChanges [.memory, .PC, .loaded] s t ∧
          (∀ a, a < 4096 → (a < base ∨ base + bytes.length ≤ a) → t.readByte a = s.readByte a) ∧
          (Memory.wf s.cfg.fontBase s.M = true →
            ∀ (k : Nat) (h : k < bytes.length), t.readByte (base + k) = bytes[k])))

/-- A new instance loaded with a program of at least two bytes that fits, at the base given or else at LOAD_ADDR, fetches
its first two bytes, big-endian, in Running (20_memory.md R40, 00_scope.md R4, 70_reset_and_hazards.md R105; D20, D31). -/
def Obligations.LoadedProgramIsFetchedFirst : Prop :=
  ∀ (cfg : Config) (b0 b1 : Byte) (rest : List Byte) (given : Option Nat) (base : Nat),
    given = some base ∨ (given = none ∧ base = cfg.loadAddr.toNat) → 0x200 ≤ base → base + rest.length + 2 ≤ 4096 →
    ∃ t, applyOp (.loadProgram (b0 :: b1 :: rest) given) (construct cfg) = .next t ∧ t.st = .running ∧
      t.fetch = opcodeOfBytes b0 b1

/-- A new instance that steps without a load halts with InvalidOpcode on the zero word at LOAD_ADDR, under strict
(70_reset_and_hazards.md R105). LOAD_ADDR = 0xFFF is left out: its second byte is M[0x000], which a font at 0 makes
nonzero. -/
def Obligations.SteppingWithoutALoadHalts : Prop :=
  ∀ cfg : Config, cfg.wf = true → cfg.unknownOpcodePolicy = .strict → cfg.loadAddr.toNat ≠ 0xFFF →
    ∃ t, step (construct cfg) = .next t ∧
      t.st = .halted ⟨.invalidOpcode, some 0x0000, some (zext16 cfg.loadAddr)⟩ ∧
      t.PC.toNat = cfg.loadAddr.toNat + 2

/-- reset() in any state: memory zero but the font, PC at LOAD_ADDR, empty stack, Running, clear framebuffer, no key,
dirty and loaded false, parameters kept; V, I, S, DT and ST zero when RESET_ZERO (70_reset_and_hazards.md R104; the values
of V, I, S, DT, ST, FB, K, dirty, loaded and keeping the parameters are the spec's decisions D4, D18, D20, D25). -/
def Obligations.ResetReinitialises : Prop :=
  ∀ s : State, s.cfg.wf = true →
    ∃ t, applyOp .reset s = .next t ∧ t.cfg = s.cfg ∧ t.PC.toNat = s.cfg.loadAddr.toNat ∧ t.SP.val = 0 ∧
      t.st = .running ∧ t.dirty = false ∧ t.loaded = false ∧
      (∀ (px : Fin 64) (py : Fin 32), State.pixel t.FB px py = false) ∧ (∀ k : Key, t.K[k] = false) ∧
      (∀ k, k < 80 → t.readByte (s.cfg.fontBase.toNat + k) = Memory.font.getD k 0) ∧
      (∀ a, a < 4096 → (a < s.cfg.fontBase.toNat ∨ s.cfg.fontBase.toNat + 80 ≤ a) → t.readByte a = 0) ∧
      (s.cfg.resetZero = true →
        (∀ r : Reg, t.getV r = 0) ∧ t.I = 0 ∧ (∀ j : Fin 16, t.S[j] = 0) ∧ t.DT = 0 ∧ t.ST = 0)

/-- The state after reset under the default parameters, with the 80 font bytes written out (R104; 10_state.md section 10;
20_memory.md R28; the model's choice of the defaults: log 2, log 3, log 5, log 11). -/
def Obligations.ResetStateHasTheStatedValues : Prop :=
  State.reset.PC = 0x200 ∧ State.reset.SP = 0 ∧ State.reset.I = 0 ∧ State.reset.DT = 0 ∧ State.reset.ST = 0 ∧
  State.reset.st = .running ∧ State.reset.dirty = false ∧ State.reset.loaded = false ∧ State.reset.M = [] ∧
  (∀ r : Reg, State.reset.getV r = 0) ∧ (∀ k : Key, State.reset.K[k] = false) ∧
  State.reset.readByte 0x04F = 0 ∧ State.reset.readByte 0x0A0 = 0 ∧ State.reset.readByte 0x200 = 0 ∧
  (List.range 40).map (fun k => State.reset.readByte (0x050 + k)) =
    [0xF0, 0x90, 0x90, 0x90, 0xF0, 0x20, 0x60, 0x20, 0x20, 0x70] ++
    [0xF0, 0x10, 0xF0, 0x80, 0xF0, 0xF0, 0x10, 0xF0, 0x10, 0xF0] ++
    [0x90, 0x90, 0xF0, 0x10, 0x10, 0xF0, 0x80, 0xF0, 0x10, 0xF0] ++
    [0xF0, 0x80, 0xF0, 0x90, 0xF0, 0xF0, 0x10, 0x20, 0x40, 0x40] ∧
  (List.range 40).map (fun k => State.reset.readByte (0x078 + k)) =
    [0xF0, 0x90, 0xF0, 0x90, 0xF0, 0xF0, 0x90, 0xF0, 0x10, 0xF0] ++
    [0xF0, 0x90, 0xF0, 0x90, 0x90, 0xE0, 0x90, 0xE0, 0x90, 0xE0] ++
    [0xF0, 0x80, 0x80, 0x80, 0xF0, 0xE0, 0x90, 0x90, 0x90, 0xE0] ++
    [0xF0, 0x80, 0xF0, 0x80, 0xF0, 0xF0, 0x80, 0xF0, 0x80, 0x80]

/-! ### The invariant -/

/-- The invariant holds right after reset, and right after the construction of any instance with legal parameters. -/
def Obligations.InvariantHoldsAtReset : Prop :=
  Inv State.reset ∧ ∀ cfg : Config, cfg.wf = true → Inv (construct cfg)

/-- Every step keeps the invariant: legal parameters, canonical memory, the font intact under discard, every halted state
as 60_exceptions.md R91 and R92 describe it, and a wait for a key only in a machine that has run. -/
def Obligations.StepKeepsTheInvariant : Prop :=
  ∀ s t : State, Inv s → step s = .next t → Inv t

/-- Every run of host operations, in any order the host chooses, keeps the invariant (70_reset_and_hazards.md R106;
20_memory.md R27 "immutable thereafter"). -/
def Obligations.RunsKeepTheInvariant : Prop :=
  ∀ (ops : List HostOp) (s t : State), Inv s → runOps ops s = .next t → Inv t
end

