-- ==== Sys2Proof/Laws/State.lean ====
section
/-! SUPPORT. One lemma per field per update of State, true by rfl, so that no proof unfolds a record update. -/

namespace Sys2Proof.Machine.State

/-! ### `setV` -/

@[simp] theorem setV_V (s : State) (i : Reg) (v : Byte) : (s.setV i v).V = s.V.set i v := rfl
@[simp] theorem setV_I (s : State) (i : Reg) (v : Byte) : (s.setV i v).I = s.I := rfl
@[simp] theorem setV_PC (s : State) (i : Reg) (v : Byte) : (s.setV i v).PC = s.PC := rfl
@[simp] theorem setV_S (s : State) (i : Reg) (v : Byte) : (s.setV i v).S = s.S := rfl
@[simp] theorem setV_SP (s : State) (i : Reg) (v : Byte) : (s.setV i v).SP = s.SP := rfl
@[simp] theorem setV_DT (s : State) (i : Reg) (v : Byte) : (s.setV i v).DT = s.DT := rfl
@[simp] theorem setV_ST (s : State) (i : Reg) (v : Byte) : (s.setV i v).ST = s.ST := rfl
@[simp] theorem setV_M (s : State) (i : Reg) (v : Byte) : (s.setV i v).M = s.M := rfl
@[simp] theorem setV_FB (s : State) (i : Reg) (v : Byte) : (s.setV i v).FB = s.FB := rfl
@[simp] theorem setV_K (s : State) (i : Reg) (v : Byte) : (s.setV i v).K = s.K := rfl
@[simp] theorem setV_dirty (s : State) (i : Reg) (v : Byte) : (s.setV i v).dirty = s.dirty := rfl
@[simp] theorem setV_st (s : State) (i : Reg) (v : Byte) : (s.setV i v).st = s.st := rfl
@[simp] theorem setV_loaded (s : State) (i : Reg) (v : Byte) : (s.setV i v).loaded = s.loaded := rfl
@[simp] theorem setV_cfg (s : State) (i : Reg) (v : Byte) : (s.setV i v).cfg = s.cfg := rfl
@[simp] theorem setV_draws (s : State) (i : Reg) (v : Byte) : (s.setV i v).draws = s.draws := rfl
@[simp] theorem readByte_setV (s : State) (i : Reg) (v : Byte) (a' : Nat) : (s.setV i v).readByte a' = s.readByte a' := rfl

/-! ### `setI` -/

@[simp] theorem setI_V (s : State) (v : Word) : (s.setI v).V = s.V := rfl
@[simp] theorem setI_I (s : State) (v : Word) : (s.setI v).I = v := rfl
@[simp] theorem setI_PC (s : State) (v : Word) : (s.setI v).PC = s.PC := rfl
@[simp] theorem setI_S (s : State) (v : Word) : (s.setI v).S = s.S := rfl
@[simp] theorem setI_SP (s : State) (v : Word) : (s.setI v).SP = s.SP := rfl
@[simp] theorem setI_DT (s : State) (v : Word) : (s.setI v).DT = s.DT := rfl
@[simp] theorem setI_ST (s : State) (v : Word) : (s.setI v).ST = s.ST := rfl
@[simp] theorem setI_M (s : State) (v : Word) : (s.setI v).M = s.M := rfl
@[simp] theorem setI_FB (s : State) (v : Word) : (s.setI v).FB = s.FB := rfl
@[simp] theorem setI_K (s : State) (v : Word) : (s.setI v).K = s.K := rfl
@[simp] theorem setI_dirty (s : State) (v : Word) : (s.setI v).dirty = s.dirty := rfl
@[simp] theorem setI_st (s : State) (v : Word) : (s.setI v).st = s.st := rfl
@[simp] theorem setI_loaded (s : State) (v : Word) : (s.setI v).loaded = s.loaded := rfl
@[simp] theorem setI_cfg (s : State) (v : Word) : (s.setI v).cfg = s.cfg := rfl
@[simp] theorem setI_draws (s : State) (v : Word) : (s.setI v).draws = s.draws := rfl
@[simp] theorem getV_setI (s : State) (v : Word) (r : Reg) : (s.setI v).getV r = s.getV r := rfl
@[simp] theorem readByte_setI (s : State) (v : Word) (a' : Nat) : (s.setI v).readByte a' = s.readByte a' := rfl

/-! ### `setPC` -/

@[simp] theorem setPC_V (s : State) (v : Word) : (s.setPC v).V = s.V := rfl
@[simp] theorem setPC_I (s : State) (v : Word) : (s.setPC v).I = s.I := rfl
@[simp] theorem setPC_PC (s : State) (v : Word) : (s.setPC v).PC = v := rfl
@[simp] theorem setPC_S (s : State) (v : Word) : (s.setPC v).S = s.S := rfl
@[simp] theorem setPC_SP (s : State) (v : Word) : (s.setPC v).SP = s.SP := rfl
@[simp] theorem setPC_DT (s : State) (v : Word) : (s.setPC v).DT = s.DT := rfl
@[simp] theorem setPC_ST (s : State) (v : Word) : (s.setPC v).ST = s.ST := rfl
@[simp] theorem setPC_M (s : State) (v : Word) : (s.setPC v).M = s.M := rfl
@[simp] theorem setPC_FB (s : State) (v : Word) : (s.setPC v).FB = s.FB := rfl
@[simp] theorem setPC_K (s : State) (v : Word) : (s.setPC v).K = s.K := rfl
@[simp] theorem setPC_dirty (s : State) (v : Word) : (s.setPC v).dirty = s.dirty := rfl
@[simp] theorem setPC_st (s : State) (v : Word) : (s.setPC v).st = s.st := rfl
@[simp] theorem setPC_loaded (s : State) (v : Word) : (s.setPC v).loaded = s.loaded := rfl
@[simp] theorem setPC_cfg (s : State) (v : Word) : (s.setPC v).cfg = s.cfg := rfl
@[simp] theorem setPC_draws (s : State) (v : Word) : (s.setPC v).draws = s.draws := rfl
@[simp] theorem getV_setPC (s : State) (v : Word) (r : Reg) : (s.setPC v).getV r = s.getV r := rfl
@[simp] theorem readByte_setPC (s : State) (v : Word) (a' : Nat) : (s.setPC v).readByte a' = s.readByte a' := rfl

/-! ### `setDT` -/

@[simp] theorem setDT_V (s : State) (v : Byte) : (s.setDT v).V = s.V := rfl
@[simp] theorem setDT_I (s : State) (v : Byte) : (s.setDT v).I = s.I := rfl
@[simp] theorem setDT_PC (s : State) (v : Byte) : (s.setDT v).PC = s.PC := rfl
@[simp] theorem setDT_S (s : State) (v : Byte) : (s.setDT v).S = s.S := rfl
@[simp] theorem setDT_SP (s : State) (v : Byte) : (s.setDT v).SP = s.SP := rfl
@[simp] theorem setDT_DT (s : State) (v : Byte) : (s.setDT v).DT = v := rfl
@[simp] theorem setDT_ST (s : State) (v : Byte) : (s.setDT v).ST = s.ST := rfl
@[simp] theorem setDT_M (s : State) (v : Byte) : (s.setDT v).M = s.M := rfl
@[simp] theorem setDT_FB (s : State) (v : Byte) : (s.setDT v).FB = s.FB := rfl
@[simp] theorem setDT_K (s : State) (v : Byte) : (s.setDT v).K = s.K := rfl
@[simp] theorem setDT_dirty (s : State) (v : Byte) : (s.setDT v).dirty = s.dirty := rfl
@[simp] theorem setDT_st (s : State) (v : Byte) : (s.setDT v).st = s.st := rfl
@[simp] theorem setDT_loaded (s : State) (v : Byte) : (s.setDT v).loaded = s.loaded := rfl
@[simp] theorem setDT_cfg (s : State) (v : Byte) : (s.setDT v).cfg = s.cfg := rfl
@[simp] theorem setDT_draws (s : State) (v : Byte) : (s.setDT v).draws = s.draws := rfl
@[simp] theorem getV_setDT (s : State) (v : Byte) (r : Reg) : (s.setDT v).getV r = s.getV r := rfl
@[simp] theorem readByte_setDT (s : State) (v : Byte) (a' : Nat) : (s.setDT v).readByte a' = s.readByte a' := rfl

/-! ### `setST` -/

@[simp] theorem setST_V (s : State) (v : Byte) : (s.setST v).V = s.V := rfl
@[simp] theorem setST_I (s : State) (v : Byte) : (s.setST v).I = s.I := rfl
@[simp] theorem setST_PC (s : State) (v : Byte) : (s.setST v).PC = s.PC := rfl
@[simp] theorem setST_S (s : State) (v : Byte) : (s.setST v).S = s.S := rfl
@[simp] theorem setST_SP (s : State) (v : Byte) : (s.setST v).SP = s.SP := rfl
@[simp] theorem setST_DT (s : State) (v : Byte) : (s.setST v).DT = s.DT := rfl
@[simp] theorem setST_ST (s : State) (v : Byte) : (s.setST v).ST = v := rfl
@[simp] theorem setST_M (s : State) (v : Byte) : (s.setST v).M = s.M := rfl
@[simp] theorem setST_FB (s : State) (v : Byte) : (s.setST v).FB = s.FB := rfl
@[simp] theorem setST_K (s : State) (v : Byte) : (s.setST v).K = s.K := rfl
@[simp] theorem setST_dirty (s : State) (v : Byte) : (s.setST v).dirty = s.dirty := rfl
@[simp] theorem setST_st (s : State) (v : Byte) : (s.setST v).st = s.st := rfl
@[simp] theorem setST_loaded (s : State) (v : Byte) : (s.setST v).loaded = s.loaded := rfl
@[simp] theorem setST_cfg (s : State) (v : Byte) : (s.setST v).cfg = s.cfg := rfl
@[simp] theorem setST_draws (s : State) (v : Byte) : (s.setST v).draws = s.draws := rfl
@[simp] theorem getV_setST (s : State) (v : Byte) (r : Reg) : (s.setST v).getV r = s.getV r := rfl
@[simp] theorem readByte_setST (s : State) (v : Byte) (a' : Nat) : (s.setST v).readByte a' = s.readByte a' := rfl

/-! ### `setFB` -/

@[simp] theorem setFB_V (s : State) (f : Framebuffer) : (s.setFB f).V = s.V := rfl
@[simp] theorem setFB_I (s : State) (f : Framebuffer) : (s.setFB f).I = s.I := rfl
@[simp] theorem setFB_PC (s : State) (f : Framebuffer) : (s.setFB f).PC = s.PC := rfl
@[simp] theorem setFB_S (s : State) (f : Framebuffer) : (s.setFB f).S = s.S := rfl
@[simp] theorem setFB_SP (s : State) (f : Framebuffer) : (s.setFB f).SP = s.SP := rfl
@[simp] theorem setFB_DT (s : State) (f : Framebuffer) : (s.setFB f).DT = s.DT := rfl
@[simp] theorem setFB_ST (s : State) (f : Framebuffer) : (s.setFB f).ST = s.ST := rfl
@[simp] theorem setFB_M (s : State) (f : Framebuffer) : (s.setFB f).M = s.M := rfl
@[simp] theorem setFB_FB (s : State) (f : Framebuffer) : (s.setFB f).FB = f := rfl
@[simp] theorem setFB_K (s : State) (f : Framebuffer) : (s.setFB f).K = s.K := rfl
@[simp] theorem setFB_dirty (s : State) (f : Framebuffer) : (s.setFB f).dirty = s.dirty := rfl
@[simp] theorem setFB_st (s : State) (f : Framebuffer) : (s.setFB f).st = s.st := rfl
@[simp] theorem setFB_loaded (s : State) (f : Framebuffer) : (s.setFB f).loaded = s.loaded := rfl
@[simp] theorem setFB_cfg (s : State) (f : Framebuffer) : (s.setFB f).cfg = s.cfg := rfl
@[simp] theorem setFB_draws (s : State) (f : Framebuffer) : (s.setFB f).draws = s.draws := rfl
@[simp] theorem getV_setFB (s : State) (f : Framebuffer) (r : Reg) : (s.setFB f).getV r = s.getV r := rfl
@[simp] theorem readByte_setFB (s : State) (f : Framebuffer) (a' : Nat) : (s.setFB f).readByte a' = s.readByte a' := rfl

/-! ### `setDirty` -/

@[simp] theorem setDirty_V (s : State) (b : Bool) : (s.setDirty b).V = s.V := rfl
@[simp] theorem setDirty_I (s : State) (b : Bool) : (s.setDirty b).I = s.I := rfl
@[simp] theorem setDirty_PC (s : State) (b : Bool) : (s.setDirty b).PC = s.PC := rfl
@[simp] theorem setDirty_S (s : State) (b : Bool) : (s.setDirty b).S = s.S := rfl
@[simp] theorem setDirty_SP (s : State) (b : Bool) : (s.setDirty b).SP = s.SP := rfl
@[simp] theorem setDirty_DT (s : State) (b : Bool) : (s.setDirty b).DT = s.DT := rfl
@[simp] theorem setDirty_ST (s : State) (b : Bool) : (s.setDirty b).ST = s.ST := rfl
@[simp] theorem setDirty_M (s : State) (b : Bool) : (s.setDirty b).M = s.M := rfl
@[simp] theorem setDirty_FB (s : State) (b : Bool) : (s.setDirty b).FB = s.FB := rfl
@[simp] theorem setDirty_K (s : State) (b : Bool) : (s.setDirty b).K = s.K := rfl
@[simp] theorem setDirty_dirty (s : State) (b : Bool) : (s.setDirty b).dirty = b := rfl
@[simp] theorem setDirty_st (s : State) (b : Bool) : (s.setDirty b).st = s.st := rfl
@[simp] theorem setDirty_loaded (s : State) (b : Bool) : (s.setDirty b).loaded = s.loaded := rfl
@[simp] theorem setDirty_cfg (s : State) (b : Bool) : (s.setDirty b).cfg = s.cfg := rfl
@[simp] theorem setDirty_draws (s : State) (b : Bool) : (s.setDirty b).draws = s.draws := rfl
@[simp] theorem getV_setDirty (s : State) (b : Bool) (r : Reg) : (s.setDirty b).getV r = s.getV r := rfl
@[simp] theorem readByte_setDirty (s : State) (b : Bool) (a' : Nat) : (s.setDirty b).readByte a' = s.readByte a' := rfl

/-! ### `setSt` -/

@[simp] theorem setSt_V (s : State) (e : ExecState) : (s.setSt e).V = s.V := rfl
@[simp] theorem setSt_I (s : State) (e : ExecState) : (s.setSt e).I = s.I := rfl
@[simp] theorem setSt_PC (s : State) (e : ExecState) : (s.setSt e).PC = s.PC := rfl
@[simp] theorem setSt_S (s : State) (e : ExecState) : (s.setSt e).S = s.S := rfl
@[simp] theorem setSt_SP (s : State) (e : ExecState) : (s.setSt e).SP = s.SP := rfl
@[simp] theorem setSt_DT (s : State) (e : ExecState) : (s.setSt e).DT = s.DT := rfl
@[simp] theorem setSt_ST (s : State) (e : ExecState) : (s.setSt e).ST = s.ST := rfl
@[simp] theorem setSt_M (s : State) (e : ExecState) : (s.setSt e).M = s.M := rfl
@[simp] theorem setSt_FB (s : State) (e : ExecState) : (s.setSt e).FB = s.FB := rfl
@[simp] theorem setSt_K (s : State) (e : ExecState) : (s.setSt e).K = s.K := rfl
@[simp] theorem setSt_dirty (s : State) (e : ExecState) : (s.setSt e).dirty = s.dirty := rfl
@[simp] theorem setSt_st (s : State) (e : ExecState) : (s.setSt e).st = e := rfl
@[simp] theorem setSt_loaded (s : State) (e : ExecState) : (s.setSt e).loaded = s.loaded := rfl
@[simp] theorem setSt_cfg (s : State) (e : ExecState) : (s.setSt e).cfg = s.cfg := rfl
@[simp] theorem setSt_draws (s : State) (e : ExecState) : (s.setSt e).draws = s.draws := rfl
@[simp] theorem getV_setSt (s : State) (e : ExecState) (r : Reg) : (s.setSt e).getV r = s.getV r := rfl
@[simp] theorem readByte_setSt (s : State) (e : ExecState) (a' : Nat) : (s.setSt e).readByte a' = s.readByte a' := rfl

/-! ### `setLoaded` -/

@[simp] theorem setLoaded_V (s : State) (b : Bool) : (s.setLoaded b).V = s.V := rfl
@[simp] theorem setLoaded_I (s : State) (b : Bool) : (s.setLoaded b).I = s.I := rfl
@[simp] theorem setLoaded_PC (s : State) (b : Bool) : (s.setLoaded b).PC = s.PC := rfl
@[simp] theorem setLoaded_S (s : State) (b : Bool) : (s.setLoaded b).S = s.S := rfl
@[simp] theorem setLoaded_SP (s : State) (b : Bool) : (s.setLoaded b).SP = s.SP := rfl
@[simp] theorem setLoaded_DT (s : State) (b : Bool) : (s.setLoaded b).DT = s.DT := rfl
@[simp] theorem setLoaded_ST (s : State) (b : Bool) : (s.setLoaded b).ST = s.ST := rfl
@[simp] theorem setLoaded_M (s : State) (b : Bool) : (s.setLoaded b).M = s.M := rfl
@[simp] theorem setLoaded_FB (s : State) (b : Bool) : (s.setLoaded b).FB = s.FB := rfl
@[simp] theorem setLoaded_K (s : State) (b : Bool) : (s.setLoaded b).K = s.K := rfl
@[simp] theorem setLoaded_dirty (s : State) (b : Bool) : (s.setLoaded b).dirty = s.dirty := rfl
@[simp] theorem setLoaded_st (s : State) (b : Bool) : (s.setLoaded b).st = s.st := rfl
@[simp] theorem setLoaded_loaded (s : State) (b : Bool) : (s.setLoaded b).loaded = b := rfl
@[simp] theorem setLoaded_cfg (s : State) (b : Bool) : (s.setLoaded b).cfg = s.cfg := rfl
@[simp] theorem setLoaded_draws (s : State) (b : Bool) : (s.setLoaded b).draws = s.draws := rfl
@[simp] theorem getV_setLoaded (s : State) (b : Bool) (r : Reg) : (s.setLoaded b).getV r = s.getV r := rfl
@[simp] theorem readByte_setLoaded (s : State) (b : Bool) (a' : Nat) : (s.setLoaded b).readByte a' = s.readByte a' := rfl

/-! ### `setM` -/

@[simp] theorem setM_V (s : State) (m : Memory) : (s.setM m).V = s.V := rfl
@[simp] theorem setM_I (s : State) (m : Memory) : (s.setM m).I = s.I := rfl
@[simp] theorem setM_PC (s : State) (m : Memory) : (s.setM m).PC = s.PC := rfl
@[simp] theorem setM_S (s : State) (m : Memory) : (s.setM m).S = s.S := rfl
@[simp] theorem setM_SP (s : State) (m : Memory) : (s.setM m).SP = s.SP := rfl
@[simp] theorem setM_DT (s : State) (m : Memory) : (s.setM m).DT = s.DT := rfl
@[simp] theorem setM_ST (s : State) (m : Memory) : (s.setM m).ST = s.ST := rfl
@[simp] theorem setM_M (s : State) (m : Memory) : (s.setM m).M = m := rfl
@[simp] theorem setM_FB (s : State) (m : Memory) : (s.setM m).FB = s.FB := rfl
@[simp] theorem setM_K (s : State) (m : Memory) : (s.setM m).K = s.K := rfl
@[simp] theorem setM_dirty (s : State) (m : Memory) : (s.setM m).dirty = s.dirty := rfl
@[simp] theorem setM_st (s : State) (m : Memory) : (s.setM m).st = s.st := rfl
@[simp] theorem setM_loaded (s : State) (m : Memory) : (s.setM m).loaded = s.loaded := rfl
@[simp] theorem setM_cfg (s : State) (m : Memory) : (s.setM m).cfg = s.cfg := rfl
@[simp] theorem setM_draws (s : State) (m : Memory) : (s.setM m).draws = s.draws := rfl
@[simp] theorem getV_setM (s : State) (m : Memory) (r : Reg) : (s.setM m).getV r = s.getV r := rfl

/-! ### `setStack` -/

@[simp] theorem setStack_V (s : State) (j : Fin 16) (a : Word) (p : Fin 17) : (s.setStack j a p).V = s.V := rfl
@[simp] theorem setStack_I (s : State) (j : Fin 16) (a : Word) (p : Fin 17) : (s.setStack j a p).I = s.I := rfl
@[simp] theorem setStack_PC (s : State) (j : Fin 16) (a : Word) (p : Fin 17) : (s.setStack j a p).PC = s.PC := rfl
@[simp] theorem setStack_S (s : State) (j : Fin 16) (a : Word) (p : Fin 17) : (s.setStack j a p).S = s.S.set j a := rfl
@[simp] theorem setStack_SP (s : State) (j : Fin 16) (a : Word) (p : Fin 17) : (s.setStack j a p).SP = p := rfl
@[simp] theorem setStack_DT (s : State) (j : Fin 16) (a : Word) (p : Fin 17) : (s.setStack j a p).DT = s.DT := rfl
@[simp] theorem setStack_ST (s : State) (j : Fin 16) (a : Word) (p : Fin 17) : (s.setStack j a p).ST = s.ST := rfl
@[simp] theorem setStack_M (s : State) (j : Fin 16) (a : Word) (p : Fin 17) : (s.setStack j a p).M = s.M := rfl
@[simp] theorem setStack_FB (s : State) (j : Fin 16) (a : Word) (p : Fin 17) : (s.setStack j a p).FB = s.FB := rfl
@[simp] theorem setStack_K (s : State) (j : Fin 16) (a : Word) (p : Fin 17) : (s.setStack j a p).K = s.K := rfl
@[simp] theorem setStack_dirty (s : State) (j : Fin 16) (a : Word) (p : Fin 17) : (s.setStack j a p).dirty = s.dirty := rfl
@[simp] theorem setStack_st (s : State) (j : Fin 16) (a : Word) (p : Fin 17) : (s.setStack j a p).st = s.st := rfl
@[simp] theorem setStack_loaded (s : State) (j : Fin 16) (a : Word) (p : Fin 17) : (s.setStack j a p).loaded = s.loaded := rfl
@[simp] theorem setStack_cfg (s : State) (j : Fin 16) (a : Word) (p : Fin 17) : (s.setStack j a p).cfg = s.cfg := rfl
@[simp] theorem setStack_draws (s : State) (j : Fin 16) (a : Word) (p : Fin 17) : (s.setStack j a p).draws = s.draws := rfl
@[simp] theorem getV_setStack (s : State) (j : Fin 16) (a : Word) (p : Fin 17) (r : Reg) : (s.setStack j a p).getV r = s.getV r := rfl
@[simp] theorem readByte_setStack (s : State) (j : Fin 16) (a : Word) (p : Fin 17) (a' : Nat) : (s.setStack j a p).readByte a' = s.readByte a' := rfl

/-! ### `setSP` -/

@[simp] theorem setSP_V (s : State) (p : Fin 17) : (s.setSP p).V = s.V := rfl
@[simp] theorem setSP_I (s : State) (p : Fin 17) : (s.setSP p).I = s.I := rfl
@[simp] theorem setSP_PC (s : State) (p : Fin 17) : (s.setSP p).PC = s.PC := rfl
@[simp] theorem setSP_S (s : State) (p : Fin 17) : (s.setSP p).S = s.S := rfl
@[simp] theorem setSP_SP (s : State) (p : Fin 17) : (s.setSP p).SP = p := rfl
@[simp] theorem setSP_DT (s : State) (p : Fin 17) : (s.setSP p).DT = s.DT := rfl
@[simp] theorem setSP_ST (s : State) (p : Fin 17) : (s.setSP p).ST = s.ST := rfl
@[simp] theorem setSP_M (s : State) (p : Fin 17) : (s.setSP p).M = s.M := rfl
@[simp] theorem setSP_FB (s : State) (p : Fin 17) : (s.setSP p).FB = s.FB := rfl
@[simp] theorem setSP_K (s : State) (p : Fin 17) : (s.setSP p).K = s.K := rfl
@[simp] theorem setSP_dirty (s : State) (p : Fin 17) : (s.setSP p).dirty = s.dirty := rfl
@[simp] theorem setSP_st (s : State) (p : Fin 17) : (s.setSP p).st = s.st := rfl
@[simp] theorem setSP_loaded (s : State) (p : Fin 17) : (s.setSP p).loaded = s.loaded := rfl
@[simp] theorem setSP_cfg (s : State) (p : Fin 17) : (s.setSP p).cfg = s.cfg := rfl
@[simp] theorem setSP_draws (s : State) (p : Fin 17) : (s.setSP p).draws = s.draws := rfl
@[simp] theorem getV_setSP (s : State) (p : Fin 17) (r : Reg) : (s.setSP p).getV r = s.getV r := rfl
@[simp] theorem readByte_setSP (s : State) (p : Fin 17) (a' : Nat) : (s.setSP p).readByte a' = s.readByte a' := rfl

/-! ### `setK` -/

@[simp] theorem setK_V (s : State) (k : Key) (b : Bool) : (s.setK k b).V = s.V := rfl
@[simp] theorem setK_I (s : State) (k : Key) (b : Bool) : (s.setK k b).I = s.I := rfl
@[simp] theorem setK_PC (s : State) (k : Key) (b : Bool) : (s.setK k b).PC = s.PC := rfl
@[simp] theorem setK_S (s : State) (k : Key) (b : Bool) : (s.setK k b).S = s.S := rfl
@[simp] theorem setK_SP (s : State) (k : Key) (b : Bool) : (s.setK k b).SP = s.SP := rfl
@[simp] theorem setK_DT (s : State) (k : Key) (b : Bool) : (s.setK k b).DT = s.DT := rfl
@[simp] theorem setK_ST (s : State) (k : Key) (b : Bool) : (s.setK k b).ST = s.ST := rfl
@[simp] theorem setK_M (s : State) (k : Key) (b : Bool) : (s.setK k b).M = s.M := rfl
@[simp] theorem setK_FB (s : State) (k : Key) (b : Bool) : (s.setK k b).FB = s.FB := rfl
@[simp] theorem setK_K (s : State) (k : Key) (b : Bool) : (s.setK k b).K = s.K.set k b := rfl
@[simp] theorem setK_dirty (s : State) (k : Key) (b : Bool) : (s.setK k b).dirty = s.dirty := rfl
@[simp] theorem setK_st (s : State) (k : Key) (b : Bool) : (s.setK k b).st = s.st := rfl
@[simp] theorem setK_loaded (s : State) (k : Key) (b : Bool) : (s.setK k b).loaded = s.loaded := rfl
@[simp] theorem setK_cfg (s : State) (k : Key) (b : Bool) : (s.setK k b).cfg = s.cfg := rfl
@[simp] theorem setK_draws (s : State) (k : Key) (b : Bool) : (s.setK k b).draws = s.draws := rfl
@[simp] theorem getV_setK (s : State) (k : Key) (b : Bool) (r : Reg) : (s.setK k b).getV r = s.getV r := rfl
@[simp] theorem readByte_setK (s : State) (k : Key) (b : Bool) (a' : Nat) : (s.setK k b).readByte a' = s.readByte a' := rfl

/-! ### `tookDraw` -/

@[simp] theorem tookDraw_V (s : State) : (s.tookDraw).V = s.V := rfl
@[simp] theorem tookDraw_I (s : State) : (s.tookDraw).I = s.I := rfl
@[simp] theorem tookDraw_PC (s : State) : (s.tookDraw).PC = s.PC := rfl
@[simp] theorem tookDraw_S (s : State) : (s.tookDraw).S = s.S := rfl
@[simp] theorem tookDraw_SP (s : State) : (s.tookDraw).SP = s.SP := rfl
@[simp] theorem tookDraw_DT (s : State) : (s.tookDraw).DT = s.DT := rfl
@[simp] theorem tookDraw_ST (s : State) : (s.tookDraw).ST = s.ST := rfl
@[simp] theorem tookDraw_M (s : State) : (s.tookDraw).M = s.M := rfl
@[simp] theorem tookDraw_FB (s : State) : (s.tookDraw).FB = s.FB := rfl
@[simp] theorem tookDraw_K (s : State) : (s.tookDraw).K = s.K := rfl
@[simp] theorem tookDraw_dirty (s : State) : (s.tookDraw).dirty = s.dirty := rfl
@[simp] theorem tookDraw_st (s : State) : (s.tookDraw).st = s.st := rfl
@[simp] theorem tookDraw_loaded (s : State) : (s.tookDraw).loaded = s.loaded := rfl
@[simp] theorem tookDraw_cfg (s : State) : (s.tookDraw).cfg = s.cfg := rfl
@[simp] theorem tookDraw_draws (s : State) : (s.tookDraw).draws = s.draws + 1 := rfl
@[simp] theorem getV_tookDraw (s : State) (r : Reg) : (s.tookDraw).getV r = s.getV r := rfl
@[simp] theorem readByte_tookDraw (s : State) (a' : Nat) : (s.tookDraw).readByte a' = s.readByte a' := rfl

/-! ### Reading a register after a write -/

theorem getV_setV (s : State) (i r : Reg) (v : Byte) : (s.setV i v).getV r = if r = i then v else s.getV r := by
  simp only [getV, setV, Fin.getElem_fin, Vector.getElem_set, Fin.ext_iff]
  split <;> split <;> first | rfl | omega

@[simp] theorem getV_setV_self (s : State) (i : Reg) (v : Byte) : (s.setV i v).getV i = v := by simp [getV_setV]

theorem getV_setV_ne (s : State) {i r : Reg} (v : Byte) (h : r ≠ i) : (s.setV i v).getV r = s.getV r := by
  simp [getV_setV, h]

/-- A register named twice holds the later value; here the flag after the result (42_load_alu.md R63). -/
theorem getV_setResultFlag (s : State) (x r : Reg) (v : Byte) (b : Bool) :
    (s.setResultFlag x v b).getV r = if r = VF then flagByte b else if r = x then v else s.getV r := by
  simp [setResultFlag, setFlag, getV_setV]

theorem getV_setLogicResult (s : State) (x r : Reg) (v : Byte) :
    (s.setLogicResult x v).getV r =
      if s.cfg.logicQuirkResetVf = true ∧ r = VF then 0 else if r = x then v else s.getV r := by
  unfold setLogicResult
  split <;> simp_all [getV_setV]

/-! ### `advancePC`, `skipIf` -/

@[simp] theorem advancePC_PC (s : State) : s.advancePC.PC = s.PC + 2 := rfl

theorem advancePC_eq (s : State) : s.advancePC = s.setPC (s.PC + 2) := rfl

theorem skipIf_PC (c : Bool) (s : State) : (s.skipIf c).PC = if c then s.PC + 2 else s.PC := by
  cases c <;> rfl

/-- The address of the instruction under execution is where the step fetched it (40_pipeline.md R49; log 9). -/
@[simp] theorem instrAddr_advancePC (s : State) : s.advancePC.instrAddr = s.PC := by
  simp [instrAddr]

end Sys2Proof.Machine.State
end

