-- ==== Sys2Proof/Laws/Flags.lean ====
section
/-! SUPPORT. Results and flags as numbers (42_load_alu.md R64). -/

namespace Sys2Proof.Machine

@[simp] theorem flagByte_eq_one (b : Bool) : flagByte b = 1 ↔ b = true := by cases b <;> decide

@[simp] theorem flagByte_eq_zero (b : Bool) : flagByte b = 0 ↔ b = false := by cases b <;> decide

theorem addResult_eq (a b : Byte) : addResult a b = a + b := by
  apply BitVec.eq_of_toNat_eq; simp [addResult]

theorem toNat_addResult (a b : Byte) : (addResult a b).toNat = (a.toNat + b.toNat) % 256 := by
  simp [addResult]

theorem subResult_eq (a b : Byte) : subResult a b = a - b := by
  apply BitVec.eq_of_toNat_eq
  have := a.isLt; have := b.isLt
  simp only [subResult, BitVec.toNat_ofInt, BitVec.toNat_sub]
  omega

theorem toNat_subResult (a b : Byte) :
    (subResult a b).toNat = if b.toNat ≤ a.toNat then a.toNat - b.toNat else 256 + a.toNat - b.toNat := by
  have := a.isLt; have := b.isLt
  rw [subResult_eq, BitVec.toNat_sub]
  split <;> omega

theorem toNat_shrResult (a : Byte) : (shrResult a).toNat = a.toNat / 2 := by
  simp [shrResult, Nat.shiftRight_eq_div_pow]

theorem toNat_shlResult (a : Byte) : (shlResult a).toNat = 2 * a.toNat % 256 := by
  simp [shlResult, Nat.shiftLeft_eq, Nat.mul_comm]

theorem shrFlag_iff (a : Byte) : shrFlag a = true ↔ a.toNat % 2 = 1 := by
  revert a; decide

theorem shlFlag_iff (a : Byte) : shlFlag a = true ↔ 128 ≤ a.toNat := by
  revert a; decide

@[simp] theorem lowNibble_val (v : Byte) : (lowNibble v).val = v.toNat % 16 := rfl

theorem toNat_zext16 (a : Addr) : (zext16 a).toNat = a.toNat := by
  have := a.isLt
  simp [zext16]; omega

theorem toNat_jumpOffsetTarget (nnn : Addr) (v : Byte) : (jumpOffsetTarget nnn v).toNat = nnn.toNat + v.toNat := by
  have := nnn.isLt; have := v.isLt
  simp only [jumpOffsetTarget, BitVec.toNat_add, BitVec.toNat_setWidth]
  omega

theorem toNat_glyphAddr (c : Config) (d : Fin 16) : (glyphAddr c d).toNat = c.fontBase.toNat + 5 * d.val := by
  have := c.fontBase.isLt; have := d.isLt
  simp only [glyphAddr, BitVec.toNat_add, BitVec.toNat_setWidth, BitVec.toNat_ofNat]
  omega

end Sys2Proof.Machine
end

