-- ==== Sys2Proof/Laws/Frame.lean ====
section
/-! SUPPORT. How frames compose: `OnlyChanges` of each update, of two updates in a row, of a longer list of parts. -/

namespace Sys2Proof.Machine

theorem SamePart.refl (s : State) (p : Part) : SamePart s s p := by
  cases p <;> simp [SamePart]

theorem SamePart.trans {s t u : State} {p : Part} (h : SamePart s t p) (h' : SamePart t u p) : SamePart s u p := by
  cases p <;> simp_all [SamePart]

theorem OnlyChanges.refl (s : State) (ps : List Part) : OnlyChanges ps s s := fun p _ => SamePart.refl s p

theorem OnlyChanges.mono {ps qs : List Part} {s t : State} (h : OnlyChanges ps s t) (hs : ∀ p ∈ ps, p ∈ qs) :
    OnlyChanges qs s t := fun p hp => h p (fun hq => hp (hs p hq))

/-- Two changes in a row stay within any list that holds the parts of both. -/
theorem OnlyChanges.trans {ps : List Part} {s t u : State} (h : OnlyChanges ps s t) (h' : OnlyChanges ps t u) :
    OnlyChanges ps s u := fun p hp => (h p hp).trans (h' p hp)

theorem OnlyChanges.cfg {ps : List Part} {s t : State} (h : OnlyChanges ps s t) (hp : Part.cfg ∉ ps) : t.cfg = s.cfg :=
  h .cfg hp

namespace State

theorem onlyChanges_setV (s : State) (i : Reg) (v : Byte) : OnlyChanges [.V] s (s.setV i v) := by
  intro p hp; cases p <;> simp_all [SamePart]

theorem onlyChanges_setI (s : State) (v : Word) : OnlyChanges [.I] s (s.setI v) := by
  intro p hp; cases p <;> simp_all [SamePart]

theorem onlyChanges_setPC (s : State) (v : Word) : OnlyChanges [.PC] s (s.setPC v) := by
  intro p hp; cases p <;> simp_all [SamePart]

theorem onlyChanges_setDT (s : State) (v : Byte) : OnlyChanges [.DT] s (s.setDT v) := by
  intro p hp; cases p <;> simp_all [SamePart]

theorem onlyChanges_setST (s : State) (v : Byte) : OnlyChanges [.ST] s (s.setST v) := by
  intro p hp; cases p <;> simp_all [SamePart]

theorem onlyChanges_setFB (s : State) (f : Framebuffer) : OnlyChanges [.FB] s (s.setFB f) := by
  intro p hp; cases p <;> simp_all [SamePart]

theorem onlyChanges_setDirty (s : State) (b : Bool) : OnlyChanges [.dirty] s (s.setDirty b) := by
  intro p hp; cases p <;> simp_all [SamePart]

theorem onlyChanges_setSt (s : State) (e : ExecState) : OnlyChanges [.st] s (s.setSt e) := by
  intro p hp; cases p <;> simp_all [SamePart]

theorem onlyChanges_setLoaded (s : State) (b : Bool) : OnlyChanges [.loaded] s (s.setLoaded b) := by
  intro p hp; cases p <;> simp_all [SamePart]

theorem onlyChanges_setM (s : State) (m : Memory) : OnlyChanges [.memory] s (s.setM m) := by
  intro p hp; cases p <;> simp_all [SamePart]

theorem onlyChanges_setStack (s : State) (j : Fin 16) (a : Word) (p : Fin 17) :
    OnlyChanges [.stack] s (s.setStack j a p) := by
  intro p hp; cases p <;> simp_all [SamePart]

theorem onlyChanges_setSP (s : State) (p : Fin 17) : OnlyChanges [.stack] s (s.setSP p) := by
  intro p hp; cases p <;> simp_all [SamePart]

theorem onlyChanges_setK (s : State) (k : Key) (b : Bool) : OnlyChanges [.K] s (s.setK k b) := by
  intro p hp; cases p <;> simp_all [SamePart]

theorem onlyChanges_tookDraw (s : State) : OnlyChanges [.draws] s s.tookDraw := by
  intro p hp; cases p <;> simp_all [SamePart]

theorem onlyChanges_skipIf (c : Bool) (s : State) : OnlyChanges [.PC] s (s.skipIf c) := by
  cases c
  · exact OnlyChanges.refl _ _
  · exact onlyChanges_setPC s _

theorem onlyChanges_raiseHalt (s : State) (k : HaltKind) (op a : Option Word) :
    OnlyChanges [.st] s (s.raiseHalt k op a) := onlyChanges_setSt s _

theorem onlyChanges_raiseUnlessHalted (s : State) (k : HaltKind) (op a : Option Word) :
    OnlyChanges [.st] s (s.raiseUnlessHalted k op a) := by
  unfold raiseUnlessHalted
  split
  · exact OnlyChanges.refl _ _
  · exact onlyChanges_raiseHalt s k op a
  · exact onlyChanges_raiseHalt s k op a

theorem onlyChanges_setResultFlag (s : State) (x : Reg) (v : Byte) (b : Bool) :
    OnlyChanges [.V] s (s.setResultFlag x v b) := (onlyChanges_setV s x v).trans (onlyChanges_setV _ VF _)

theorem onlyChanges_setLogicResult (s : State) (x : Reg) (v : Byte) : OnlyChanges [.V] s (s.setLogicResult x v) := by
  unfold setLogicResult
  split
  · exact (onlyChanges_setV s x v).trans (onlyChanges_setV _ VF 0)
  · exact onlyChanges_setV s x v

theorem onlyChanges_writeByte (s : State) (a : Nat) (b : Byte) : OnlyChanges [.memory] s (s.writeByte a b) := by
  unfold writeByte
  split
  · exact OnlyChanges.refl _ _
  · exact onlyChanges_setM s _

theorem onlyChanges_storeBytes (s : State) (a : Nat) (bs : List Byte) : OnlyChanges [.memory] s (s.storeBytes a bs) := by
  induction bs generalizing s a with
  | nil => exact OnlyChanges.refl _ _
  | cons b rest ih => exact (onlyChanges_writeByte s a b).trans (ih _ _)

theorem onlyChanges_pokeBytes (s : State) (a : Nat) (bs : List Byte) : OnlyChanges [.memory] s (s.pokeBytes a bs) := by
  induction bs generalizing s a with
  | nil => exact OnlyChanges.refl _ _
  | cons b rest ih => exact (onlyChanges_setM s _).trans (ih _ _)

end State

end Sys2Proof.Machine
end

