-- ==== Sys2Proof/Laws/Control.lean ====
section
/-! SUPPORT. The call stack (10_state.md R13, R14), and call and return by the state of the stack (41_control_flow.md R55,
R57). -/

namespace Sys2Proof.Machine

namespace State

theorem push_of_lt {s : State} (h : s.SP.val < 16) (a : Word) :
    s.push a = some (s.setStack ⟨s.SP.val, h⟩ a ⟨s.SP.val + 1, by omega⟩) := by
  rw [push, dif_pos h]

theorem push_full {s : State} (h : s.SP.val = 16) (a : Word) : s.push a = none := by
  rw [push, dif_neg (by omega)]

theorem pop_empty {s : State} (h : s.SP.val = 0) : s.pop = none := by
  unfold pop; split
  · rfl
  · omega

theorem pop_of_pos {s : State} {p : Nat} (h : s.SP.val = p + 1) :
    s.pop = some (s.S[p]'(by have := s.SP.isLt; omega), s.setSP ⟨p, by have := s.SP.isLt; omega⟩) := by
  unfold pop
  split
  · omega
  · rename_i q hq
    have : q = p := by omega
    subst this; rfl

end State

theorem execCall_of_lt {s : State} (h : s.SP.val < 16) (nnn : Addr) :
    execCall nnn s =
      .next ((s.setStack ⟨s.SP.val, h⟩ s.PC ⟨s.SP.val + 1, by omega⟩).setPC (zext16 nnn)) := by
  rw [execCall, State.push_of_lt h]

theorem execCall_full {s : State} (h : s.SP.val = 16) (nnn : Addr) :
    execCall nnn s = .next (s.raiseAtInstr .stackOverflow (encode (.call nnn))) := by
  rw [execCall, State.push_full h]

theorem execRet_empty {s : State} (h : s.SP.val = 0) :
    execRet s = .next (s.raiseAtInstr .stackUnderflow (encode .ret)) := by
  rw [execRet, State.pop_empty h]

theorem execRet_of_pos {s : State} {p : Nat} (h : s.SP.val = p + 1) :
    execRet s = .next ((s.setSP ⟨p, by have := s.SP.isLt; omega⟩).setPC (s.S[p]'(by have := s.SP.isLt; omega))) := by
  rw [execRet, State.pop_of_pos h]

end Sys2Proof.Machine
end

