-- ==== Sys2Proof/Laws/Decode.lean ====
section
/-! SUPPORT. Words and their fields: each field of a word put together from fields is that field, and every word is put
together from its fields (30_encoding.md R42). -/

namespace Sys2Proof

theorem toNat_append_eq {n m : Nat} (x : BitVec n) (y : BitVec m) : (x ++ y).toNat = x.toNat * 2 ^ m + y.toNat := by
  rw [BitVec.toNat_append, ← Nat.shiftLeft_add_eq_or_of_lt y.isLt, Nat.shiftLeft_eq]

theorem toNat_wordNNN (c : Nibble) (nnn : Addr) : (wordNNN c nnn).toNat = c.toNat * 4096 + nnn.toNat :=
  toNat_append_eq c nnn

theorem toNat_wordXNN (c : Nibble) (x : Reg) (nn : Byte) :
    (wordXNN c x nn).toNat = c.toNat * 4096 + x.val * 256 + nn.toNat := by
  have h : (wordXNN c x nn).toNat = (c ++ BitVec.ofFin (w := 4) x).toNat * 2 ^ 8 + nn.toNat := toNat_append_eq _ nn
  have h' : (c ++ BitVec.ofFin (w := 4) x).toNat = c.toNat * 2 ^ 4 + x.val := toNat_append_eq c _
  rw [h, h']
  ring

theorem toNat_wordXYN (c : Nibble) (x y : Reg) (n : Nibble) :
    (wordXYN c x y n).toNat = c.toNat * 4096 + x.val * 256 + y.val * 16 + n.toNat := by
  have h : (wordXYN c x y n).toNat =
      (c ++ BitVec.ofFin (w := 4) x ++ BitVec.ofFin (w := 4) y).toNat * 2 ^ 4 + n.toNat := toNat_append_eq _ n
  have h' : (c ++ BitVec.ofFin (w := 4) x ++ BitVec.ofFin (w := 4) y).toNat =
      (c ++ BitVec.ofFin (w := 4) x).toNat * 2 ^ 4 + y.val := toNat_append_eq _ _
  have h'' : (c ++ BitVec.ofFin (w := 4) x).toNat = c.toNat * 2 ^ 4 + x.val := toNat_append_eq c _
  rw [h, h', h'']
  ring

/-! ### The fields as numbers -/

theorem toNat_opClass (op : Word) : (opClass op).toNat = op.toNat / 4096 := by
  have := op.isLt
  simp only [opClass, BitVec.extractLsb'_toNat, Nat.shiftRight_eq_div_pow]
  omega

theorem val_opX (op : Word) : (opX op).val = op.toNat / 256 % 16 := by
  have h : (opX op).val = (op.extractLsb' 8 4).toNat := rfl
  simp only [h, BitVec.extractLsb'_toNat, Nat.shiftRight_eq_div_pow]

theorem val_opY (op : Word) : (opY op).val = op.toNat / 16 % 16 := by
  have h : (opY op).val = (op.extractLsb' 4 4).toNat := rfl
  simp only [h, BitVec.extractLsb'_toNat, Nat.shiftRight_eq_div_pow]

theorem toNat_opN (op : Word) : (opN op).toNat = op.toNat % 16 := by
  simp only [opN, BitVec.extractLsb'_toNat, Nat.shiftRight_eq_div_pow]
  omega

theorem toNat_opNN (op : Word) : (opNN op).toNat = op.toNat % 256 := by
  simp only [opNN, BitVec.extractLsb'_toNat, Nat.shiftRight_eq_div_pow]
  omega

theorem toNat_opNNN (op : Word) : (opNNN op).toNat = op.toNat % 4096 := by
  simp only [opNNN, BitVec.extractLsb'_toNat, Nat.shiftRight_eq_div_pow]
  omega

/-! ### Fields of a word put together -/

@[simp] theorem opClass_wordNNN (c : Nibble) (nnn : Addr) : opClass (wordNNN c nnn) = c := by
  apply BitVec.eq_of_toNat_eq
  have := nnn.isLt; have := c.isLt
  rw [toNat_opClass, toNat_wordNNN]; omega

@[simp] theorem opNNN_wordNNN (c : Nibble) (nnn : Addr) : opNNN (wordNNN c nnn) = nnn := by
  apply BitVec.eq_of_toNat_eq
  have := nnn.isLt
  rw [toNat_opNNN, toNat_wordNNN]; omega

theorem val_opX_wordNNN (c : Nibble) (nnn : Addr) : (opX (wordNNN c nnn)).val = nnn.toNat / 256 := by
  have := nnn.isLt
  rw [val_opX, toNat_wordNNN]; omega

@[simp] theorem opClass_wordXNN (c : Nibble) (x : Reg) (nn : Byte) : opClass (wordXNN c x nn) = c := by
  apply BitVec.eq_of_toNat_eq
  have := nn.isLt; have := x.isLt
  rw [toNat_opClass, toNat_wordXNN]; omega

@[simp] theorem opX_wordXNN (c : Nibble) (x : Reg) (nn : Byte) : opX (wordXNN c x nn) = x := by
  apply Fin.ext
  have := nn.isLt; have := x.isLt
  rw [val_opX, toNat_wordXNN]; omega

@[simp] theorem opNN_wordXNN (c : Nibble) (x : Reg) (nn : Byte) : opNN (wordXNN c x nn) = nn := by
  apply BitVec.eq_of_toNat_eq
  have := nn.isLt
  rw [toNat_opNN, toNat_wordXNN]; omega

@[simp] theorem opClass_wordXYN (c : Nibble) (x y : Reg) (n : Nibble) : opClass (wordXYN c x y n) = c := by
  apply BitVec.eq_of_toNat_eq
  have := n.isLt; have := x.isLt; have := y.isLt
  rw [toNat_opClass, toNat_wordXYN]; omega

@[simp] theorem opX_wordXYN (c : Nibble) (x y : Reg) (n : Nibble) : opX (wordXYN c x y n) = x := by
  apply Fin.ext
  have := n.isLt; have := x.isLt; have := y.isLt
  rw [val_opX, toNat_wordXYN]; omega

@[simp] theorem opY_wordXYN (c : Nibble) (x y : Reg) (n : Nibble) : opY (wordXYN c x y n) = y := by
  apply Fin.ext
  have := n.isLt; have := y.isLt
  rw [val_opY, toNat_wordXYN]; omega

@[simp] theorem opN_wordXYN (c : Nibble) (x y : Reg) (n : Nibble) : opN (wordXYN c x y n) = n := by
  apply BitVec.eq_of_toNat_eq
  have := n.isLt
  rw [toNat_opN, toNat_wordXYN]; omega

/-! ### Every word from its fields -/

theorem wordNNN_fields (op : Word) : wordNNN (opClass op) (opNNN op) = op := by
  apply BitVec.eq_of_toNat_eq
  rw [toNat_wordNNN, toNat_opClass, toNat_opNNN]; omega

theorem wordXNN_fields (op : Word) : wordXNN (opClass op) (opX op) (opNN op) = op := by
  apply BitVec.eq_of_toNat_eq
  rw [toNat_wordXNN, toNat_opClass, val_opX, toNat_opNN]; omega

theorem wordXYN_fields (op : Word) : wordXYN (opClass op) (opX op) (opY op) (opN op) = op := by
  apply BitVec.eq_of_toNat_eq
  rw [toNat_wordXYN, toNat_opClass, val_opX, val_opY, toNat_opN]; omega

/-! ### Bytes of a word (20_memory.md R32) -/

theorem toNat_opcodeOfBytes (b0 b1 : Byte) : (opcodeOfBytes b0 b1).toNat = b0.toNat * 256 + b1.toNat :=
  toNat_append_eq b0 b1

@[simp] theorem opcodeOfBytes_bytes (op : Word) : opcodeOfBytes (firstByte op) (secondByte op) = op := by
  apply BitVec.eq_of_toNat_eq
  have := op.isLt
  simp only [toNat_opcodeOfBytes, firstByte, secondByte, BitVec.extractLsb'_toNat, Nat.shiftRight_eq_div_pow]
  omega

@[simp] theorem firstByte_opcodeOfBytes (b0 b1 : Byte) : firstByte (opcodeOfBytes b0 b1) = b0 := by
  apply BitVec.eq_of_toNat_eq
  have := b0.isLt; have := b1.isLt
  simp only [firstByte, BitVec.extractLsb'_toNat, Nat.shiftRight_eq_div_pow, toNat_opcodeOfBytes]
  omega

@[simp] theorem secondByte_opcodeOfBytes (b0 b1 : Byte) : secondByte (opcodeOfBytes b0 b1) = b1 := by
  apply BitVec.eq_of_toNat_eq
  have := b1.isLt
  simp only [secondByte, BitVec.extractLsb'_toNat, Nat.shiftRight_eq_div_pow, toNat_opcodeOfBytes]
  omega

/-! ### Masked words -/

theorem append_and_append {n m : Nat} (a c : BitVec n) (b d : BitVec m) : (a ++ b) &&& (c ++ d) = (a &&& c) ++ (b &&& d) := by
  ext i hi
  simp only [BitVec.getElem_and, BitVec.getElem_append]
  split <;> simp

/-- Masking a word by class, `x` field and low byte. -/
theorem wordXNN_and (c c' x' : Nibble) (x : Reg) (nn nn' : Byte) :
    wordXNN c x nn &&& (c' ++ x' ++ nn' : Word) =
      wordXNN (c &&& c') (BitVec.ofFin (w := 4) x &&& x').toFin (nn &&& nn') := by
  have h := append_and_append (c ++ BitVec.ofFin (w := 4) x) (c' ++ x') nn nn'
  exact h.trans (congrArg (· ++ (nn &&& nn')) (append_and_append _ _ _ _))

/-- Masking a word nibble by nibble. -/
theorem wordXYN_and (c c' x' y' n n' : Nibble) (x y : Reg) :
    wordXYN c x y n &&& (c' ++ x' ++ y' ++ n' : Word) =
      wordXYN (c &&& c') (BitVec.ofFin (w := 4) x &&& x').toFin (BitVec.ofFin (w := 4) y &&& y').toFin (n &&& n') := by
  have h := append_and_append (c ++ BitVec.ofFin (w := 4) x ++ BitVec.ofFin (w := 4) y) (c' ++ x' ++ y') n n'
  have h' := append_and_append (c ++ BitVec.ofFin (w := 4) x) (c' ++ x') (BitVec.ofFin (w := 4) y) y'
  have h'' := h'.trans (congrArg (· ++ (BitVec.ofFin (w := 4) y &&& y')) (append_and_append _ _ _ _))
  exact h.trans (congrArg (· ++ (n &&& n')) h'')

theorem nibble_and_F (c : Nibble) : c &&& 0xF#4 = c := by revert c; decide
theorem nibble_and_0 (c : Nibble) : c &&& 0x0#4 = 0#4 := BitVec.and_zero
theorem byte_and_FF (b : Byte) : b &&& 0xFF#8 = b := by revert b; decide
theorem byte_and_0 (b : Byte) : b &&& 0x00#8 = 0#8 := BitVec.and_zero

/-- Mask F000 keeps the class. -/
theorem and_F000 (op : Word) : op &&& 0xF000#16 = wordXNN (opClass op) 0 0 := by
  have h := wordXNN_and (opClass op) 0xF#4 0x0#4 (opX op) (opNN op) 0x00#8
  rw [wordXNN_fields, nibble_and_F, nibble_and_0, byte_and_0] at h
  exact h

/-- Mask F0FF keeps the class and the low byte. -/
theorem and_F0FF (op : Word) : op &&& 0xF0FF#16 = wordXNN (opClass op) 0 (opNN op) := by
  have h := wordXNN_and (opClass op) 0xF#4 0x0#4 (opX op) (opNN op) 0xFF#8
  rw [wordXNN_fields, nibble_and_F, nibble_and_0, byte_and_FF] at h
  exact h

/-- Mask F00F keeps the class and the low nibble. -/
theorem and_F00F (op : Word) : op &&& 0xF00F#16 = wordXYN (opClass op) 0 0 (opN op) := by
  have h := wordXYN_and (opClass op) 0xF#4 0x0#4 0x0#4 (opN op) 0xF#4 (opX op) (opY op)
  rw [wordXYN_fields, nibble_and_F, nibble_and_0, nibble_and_0, nibble_and_F] at h
  exact h

theorem and_FFFF (op : Word) : op &&& 0xFFFF#16 = op := by
  have := BitVec.and_allOnes (x := op)
  exact this

/-- A word is of a row with mask F000 when its class is the row's. -/
theorem and_F000_eq (op : Word) (c : Nibble) : op &&& 0xF000#16 = wordXNN c 0 0 ↔ opClass op = c := by
  rw [and_F000]
  exact ⟨fun h => by simpa using congrArg opClass h, fun h => by rw [h]⟩

/-- A word is of a row with mask F0FF when its class and low byte are the row's. -/
theorem and_F0FF_eq (op : Word) (c : Nibble) (nn : Byte) :
    op &&& 0xF0FF#16 = wordXNN c 0 nn ↔ opClass op = c ∧ opNN op = nn := by
  rw [and_F0FF]
  exact ⟨fun h => ⟨by simpa using congrArg opClass h, by simpa using congrArg opNN h⟩, fun h => by rw [h.1, h.2]⟩

/-- A word is of a row with mask F00F when its class and low nibble are the row's. -/
theorem and_F00F_eq (op : Word) (c n : Nibble) :
    op &&& 0xF00F#16 = wordXYN c 0 0 n ↔ opClass op = c ∧ opN op = n := by
  rw [and_F00F]
  exact ⟨fun h => ⟨by simpa using congrArg opClass h, by simpa using congrArg opN h⟩, fun h => by rw [h.1, h.2]⟩

/-! ### Rows of the opcode table (30_encoding.md R45) -/

theorem matchesWord_F000 (m : String) (v op : Word) (c : Nibble) (hv : v = wordXNN c 0 0) :
    OpcodeRow.matchesWord ⟨m, 0xF000, v⟩ op = true ↔ opClass op = c := by
  rw [hv, ← and_F000_eq op c]
  exact beq_iff_eq

theorem matchesWord_F0FF (m : String) (v op : Word) (c : Nibble) (nn : Byte) (hv : v = wordXNN c 0 nn) :
    OpcodeRow.matchesWord ⟨m, 0xF0FF, v⟩ op = true ↔ opClass op = c ∧ opNN op = nn := by
  rw [hv, ← and_F0FF_eq op c nn]
  exact beq_iff_eq

theorem matchesWord_F00F (m : String) (v op : Word) (c n : Nibble) (hv : v = wordXYN c 0 0 n) :
    OpcodeRow.matchesWord ⟨m, 0xF00F, v⟩ op = true ↔ opClass op = c ∧ opN op = n := by
  rw [hv, ← and_F00F_eq op c n]
  exact beq_iff_eq

theorem matchesWord_FFFF (m : String) (v op : Word) : OpcodeRow.matchesWord ⟨m, 0xFFFF, v⟩ op = true ↔ op = v := by
  have h := and_FFFF op
  rw [OpcodeRow.matchesWord, beq_iff_eq]
  exact ⟨fun e => h.symm.trans e, fun e => h.trans e⟩

end Sys2Proof
end

