-- ==== Sys2Proof/Laws/Draw.lean ====
section
/-! SUPPORT. What drawing a sprite does: the list of pixels it falls on, that no pixel is on it twice (43_draw.md R78,
"the order of pixel updates is not observable"), and the framebuffer and collision that follow. -/

namespace Sys2Proof.Machine

theorem State.pixel_togglePixel (f : Framebuffer) (x px : Fin 64) (y py : Fin 32) :
    State.pixel (State.togglePixel f x y) px py =
      if px = x ∧ py = y then !State.pixel f px py else State.pixel f px py := by
  by_cases hy : py = y
  · subst hy
    by_cases hx : px = x
    · subst hx
      simp [State.pixel, State.togglePixel]
    · have hx' : x.val ≠ px.val := fun h => hx (Fin.ext h.symm)
      simp [State.pixel, State.togglePixel, hx, Vector.getElem_set_ne _ _ hx']
  · have hy' : y.val ≠ py.val := fun h => hy (Fin.ext h.symm)
    simp [State.pixel, State.togglePixel, hy, Vector.getElem_set_ne _ _ hy']

theorem State.pixel_blankFB (px : Fin 64) (py : Fin 32) : State.pixel State.blankFB px py = false := by
  simp [State.pixel, State.blankFB]

/-- The framebuffer pixels one sprite row falls on, left to right. -/
def rowTargets (mode : DrawClipMode) (x0 py : Nat) (b : Byte) : List (Fin 64 × Fin 32) :=
  (List.range 8).filterMap (fun c => if b.getLsbD (7 - c) then pixelTarget mode (x0 + c) py else none)

/-- The framebuffer pixels a sprite falls on, row by row. -/
def spriteTargets (mode : DrawClipMode) (x0 : Nat) : Nat → List Byte → List (Fin 64 × Fin 32)
  | _, [] => []
  | py, b :: rest => rowTargets mode x0 py b ++ spriteTargets mode x0 (py + 1) rest

theorem drawRow_eq (mode : DrawClipMode) (x0 py : Nat) (b : Byte) (cv : Canvas) :
    drawRow mode x0 py b cv = (rowTargets mode x0 py b).foldl Canvas.flip cv := by
  rw [drawRow, rowTargets, List.foldl_filterMap]
  congr 1
  funext cv c
  unfold drawBit
  cases b.getLsbD (7 - c)
  · rfl
  · cases pixelTarget mode (x0 + c) py <;> rfl

theorem drawRows_eq (mode : DrawClipMode) (x0 py : Nat) (rows : List Byte) (cv : Canvas) :
    drawRows mode x0 py rows cv = (spriteTargets mode x0 py rows).foldl Canvas.flip cv := by
  induction rows generalizing py cv with
  | nil => rfl
  | cons b rest ih => rw [drawRows, spriteTargets, List.foldl_append, ih, drawRow_eq]

/-- Where a sprite pixel falls (R78). -/
theorem pixelTarget_eq_some {mode : DrawClipMode} {px py : Nat} {p : Fin 64 × Fin 32} :
    pixelTarget mode px py = some p ↔
      (mode = .clip → px < 64 ∧ py < 32) ∧ p.1.val = px % 64 ∧ p.2.val = py % 32 := by
  unfold pixelTarget
  obtain ⟨qx, qy⟩ := p
  split
  · rename_i h
    simp only [reduceCtorEq, false_iff, not_and]
    intro h'; have := h' h.1; omega
  · rename_i h
    simp only [Option.some.injEq, Prod.mk.injEq, Fin.ext_iff]
    constructor
    · rintro ⟨h1, h2⟩
      refine ⟨fun hm => ?_, h1.symm, h2.symm⟩
      simp only [hm, true_and, not_or, not_le] at h
      exact h
    · rintro ⟨-, h1, h2⟩; exact ⟨h1.symm, h2.symm⟩

theorem mem_rowTargets {mode : DrawClipMode} {x0 py : Nat} {b : Byte} {p : Fin 64 × Fin 32} :
    p ∈ rowTargets mode x0 py b ↔
      ∃ c, c < 8 ∧ b.getLsbD (7 - c) = true ∧ pixelTarget mode (x0 + c) py = some p := by
  simp only [rowTargets, List.mem_filterMap, List.mem_range]
  constructor
  · rintro ⟨c, hc, h⟩
    split at h
    · exact ⟨c, hc, ‹_›, h⟩
    · simp at h
  · rintro ⟨c, hc, hb, h⟩
    exact ⟨c, hc, by rw [if_pos hb, h]⟩

theorem mem_spriteTargets {mode : DrawClipMode} {x0 py : Nat} {rows : List Byte} {p : Fin 64 × Fin 32} :
    p ∈ spriteTargets mode x0 py rows ↔
      ∃ r c, ∃ h : r < rows.length,
        c < 8 ∧ rows[r].getLsbD (7 - c) = true ∧ pixelTarget mode (x0 + c) (py + r) = some p := by
  induction rows generalizing py with
  | nil => simp [spriteTargets]
  | cons b rest ih =>
    rw [spriteTargets, List.mem_append, mem_rowTargets, ih]
    constructor
    · rintro (⟨c, hc, hb, h⟩ | ⟨r, c, hr, hc, hb, h⟩)
      · exact ⟨0, c, by simp, hc, by simpa using hb, by simpa using h⟩
      · exact ⟨r + 1, c, by simpa using hr, hc, by simpa using hb, by rwa [show py + (r + 1) = py + 1 + r by omega]⟩
    · rintro ⟨r, c, hr, hc, hb, h⟩
      cases r with
      | zero => exact .inl ⟨c, hc, by simpa using hb, by simpa using h⟩
      | succ r =>
        exact .inr ⟨r, c, by simpa using hr, hc, by simpa using hb, by rwa [show py + 1 + r = py + (r + 1) by omega]⟩

theorem rowTargets_nodup (mode : DrawClipMode) (x0 py : Nat) (b : Byte) : (rowTargets mode x0 py b).Nodup := by
  unfold rowTargets
  refine List.Pairwise.filterMap (R := fun c c' => c < 8 ∧ c' < 8 ∧ c ≠ c') _ ?_ ?_
  · rintro c c' ⟨hc, hc', hne⟩ p hp p' hp' rfl
    simp only [Option.ite_none_right_eq_some] at hp hp'
    have h1 := (pixelTarget_eq_some.mp hp.2).2.1
    have h2 := (pixelTarget_eq_some.mp hp'.2).2.1
    omega
  · have : List.range 8 = [0, 1, 2, 3, 4, 5, 6, 7] := rfl
    rw [this]; simp

/-- A sprite of at most 32 rows falls on no pixel twice. -/
theorem spriteTargets_nodup (mode : DrawClipMode) (x0 py : Nat) (rows : List Byte) (hl : rows.length ≤ 32) :
    (spriteTargets mode x0 py rows).Nodup := by
  induction rows generalizing py with
  | nil => exact List.nodup_nil
  | cons b rest ih =>
    simp only [List.length_cons] at hl
    refine List.nodup_append.mpr ⟨rowTargets_nodup mode x0 py b, ih (py + 1) (by omega), ?_⟩
    intro p hp q hq hpq
    subst hpq
    obtain ⟨c, -, -, h⟩ := mem_rowTargets.mp hp
    obtain ⟨r, c', hr, -, -, h'⟩ := mem_spriteTargets.mp hq
    have h1 := (pixelTarget_eq_some.mp h).2.2
    have h2 := (pixelTarget_eq_some.mp h').2.2
    omega

/-- Flipping a list of distinct pixels: each of them is inverted, no other changes, and `hit` tells whether one of them was
lit. -/
theorem foldl_flip (l : List (Fin 64 × Fin 32)) (hn : l.Nodup) (cv : Canvas) :
    (∀ p : Fin 64 × Fin 32, State.pixel (l.foldl Canvas.flip cv).fb p.1 p.2 =
      if p ∈ l then !State.pixel cv.fb p.1 p.2 else State.pixel cv.fb p.1 p.2) ∧
    ((l.foldl Canvas.flip cv).hit = true ↔ cv.hit = true ∨ ∃ p ∈ l, State.pixel cv.fb p.1 p.2 = true) := by
  induction l generalizing cv with
  | nil => simp
  | cons q rest ih =>
    obtain ⟨hq, hrest⟩ := List.nodup_cons.mp hn
    obtain ⟨ihp, ihh⟩ := ih hrest (cv.flip q)
    have key : ∀ p : Fin 64 × Fin 32, State.pixel (cv.flip q).fb p.1 p.2 =
        if p = q then !State.pixel cv.fb p.1 p.2 else State.pixel cv.fb p.1 p.2 := by
      intro p
      rw [Canvas.flip, State.pixel_togglePixel]
      simp only [Prod.ext_iff]
    constructor
    · intro p
      rw [List.foldl_cons, ihp p, key p]
      by_cases hpq : p = q
      · subst hpq; simp [hq]
      · simp [hpq]
    · rw [List.foldl_cons, ihh]
      have e : ∀ p ∈ rest, State.pixel (cv.flip q).fb p.1 p.2 = State.pixel cv.fb p.1 p.2 := by
        intro p hp
        rw [key p, if_neg (fun h : p = q => hq (h ▸ hp))]
      constructor
      · rintro (h | ⟨p, hp, h⟩)
        · simp only [Canvas.flip, Bool.or_eq_true] at h
          exact h.elim .inl (fun h => .inr ⟨q, by simp, h⟩)
        · exact .inr ⟨p, by simp [hp], by rwa [← e p hp]⟩
      · rintro (h | ⟨p, hp, h⟩)
        · exact .inl (by simp [Canvas.flip, h])
        · rcases List.mem_cons.mp hp with rfl | hp
          · exact .inl (by simp [Canvas.flip, h])
          · exact .inr ⟨p, hp, by rwa [e p hp]⟩

/-- The pixels of Dxyn in state `s`. -/
def drawTargets (x y : Reg) (n : Fin 16) (s : State) : List (Fin 64 × Fin 32) :=
  spriteTargets s.cfg.drawClipMode (spriteX (s.getV x)) (spriteY (s.getV y)) (spriteRows s n.val)

theorem drawTargets_nodup (x y : Reg) (n : Fin 16) (s : State) : (drawTargets x y n s).Nodup :=
  spriteTargets_nodup _ _ _ _ (by simp [spriteRows]; omega)

theorem mem_drawTargets {x y : Reg} {n : Fin 16} {s : State} {p : Fin 64 × Fin 32} :
    p ∈ drawTargets x y n s ↔
      ∃ r c, r < n.val ∧ c < 8 ∧ (s.readByte (s.I.toNat + r)).getLsbD (7 - c) = true ∧
        pixelTarget s.cfg.drawClipMode (spriteX (s.getV x) + c) (spriteY (s.getV y) + r) = some p := by
  rw [drawTargets, mem_spriteTargets]
  constructor
  · rintro ⟨r, c, hr, hc, hb, h⟩
    exact ⟨r, c, by simpa [spriteRows] using hr, hc, by simpa [spriteRows] using hb, h⟩
  · rintro ⟨r, c, hr, hc, hb, h⟩
    exact ⟨r, c, by simpa [spriteRows] using hr, hc, by simpa [spriteRows] using hb, h⟩

/-- The whole effect of Dxyn on the framebuffer and the collision flag. -/
theorem drawnCanvas_spec (x y : Reg) (n : Fin 16) (s : State) :
    (∀ (px : Fin 64) (py : Fin 32), State.pixel (drawnCanvas x y n s).fb px py =
      if (px, py) ∈ drawTargets x y n s then !State.pixel s.FB px py else State.pixel s.FB px py) ∧
    ((drawnCanvas x y n s).hit = true ↔ ∃ p ∈ drawTargets x y n s, State.pixel s.FB p.1 p.2 = true) := by
  rw [drawnCanvas, drawRows_eq]
  obtain ⟨h1, h2⟩ := foldl_flip _ (drawTargets_nodup x y n s) ⟨s.FB, false⟩
  exact ⟨fun px py => h1 (px, py), by simpa [drawTargets] using h2⟩

end Sys2Proof.Machine
end

