-- ==== Sys2Proof/Laws/Memory.lean ====
section
/-! SUPPORT. Memory: a read after a write, and that every memory operation keeps the canonical form. -/

namespace Sys2Proof.Machine

namespace Memory

variable {fb : Addr}

theorem wfFrom_cons {lo k : Nat} {b : Byte} {rest : Memory} :
    wfFrom fb lo ((k, b) :: rest) = true ↔
      lo ≤ k ∧ k < size ∧ b ≠ resetContents fb k ∧ wfFrom fb (k + 1) rest = true := by
  simp [wfFrom, and_assoc]

theorem wfFrom_mono {lo lo' : Nat} (h : lo' ≤ lo) {m : Memory} (hm : wfFrom fb lo m = true) : wfFrom fb lo' m = true := by
  cases m with
  | nil => rfl
  | cons c rest =>
    obtain ⟨k, b⟩ := c
    rw [wfFrom_cons] at hm ⊢
    exact ⟨h.trans hm.1, hm.2⟩

/-- Below a canonical list nothing is listed. -/
theorem cellAt_of_lt {lo a : Nat} {m : Memory} (hm : wfFrom fb lo m = true) (h : a < lo) : cellAt m a = none := by
  induction m generalizing lo with
  | nil => rfl
  | cons c rest ih =>
    obtain ⟨k, b⟩ := c
    rw [wfFrom_cons] at hm
    rw [cellAt, if_neg (by omega)]
    exact ih hm.2.2.2 (by omega)

theorem cellAt_listed_append_ne {a a' : Nat} (h : a' ≠ a) (b : Byte) (m : Memory) :
    cellAt (listed fb a b ++ m) a' = cellAt m a' := by
  unfold listed; split <;> simp [cellAt, h]

/-- A write leaves every other address alone (in any list of cells). -/
theorem readCell_writeCell_ne {a a' : Nat} (h : a' ≠ a) (m : Memory) (b : Byte) :
    readCell fb (writeCell fb m a b) a' = readCell fb m a' := by
  have key : cellAt (writeCell fb m a b) a' = cellAt m a' := by
    induction m with
    | nil => simpa [writeCell] using cellAt_listed_append_ne (fb := fb) h b []
    | cons c rest ih =>
      obtain ⟨k, c⟩ := c
      unfold writeCell
      split
      · exact cellAt_listed_append_ne h b _
      · split
        · subst a; rw [cellAt_listed_append_ne h, cellAt, if_neg h]
        · simp only [cellAt, ih]
  rw [readCell, readCell, key]

theorem readCell_listed_append {lo a : Nat} {m : Memory} (hm : wfFrom fb lo m = true) (h : a < lo) (b : Byte) :
    readCell fb (listed fb a b ++ m) a = b := by
  unfold listed
  split
  · simp [readCell, cellAt_of_lt hm h, *]
  · simp [readCell, cellAt]

/-- A read of the address written gives the byte written. -/
theorem readCell_writeCell_self {lo : Nat} {m : Memory} (hm : wfFrom fb lo m = true) (a : Nat) (b : Byte) :
    readCell fb (writeCell fb m a b) a = b := by
  induction m generalizing lo with
  | nil => simpa [writeCell] using readCell_listed_append (m := []) (lo := a + 1) (fb := fb) rfl (Nat.lt_succ_self a) b
  | cons c rest ih =>
    obtain ⟨k, c⟩ := c
    have hk := wfFrom_cons.mp hm
    unfold writeCell
    split
    · rename_i hlt
      exact readCell_listed_append (lo := k) (wfFrom_cons.mpr ⟨le_refl k, hk.2⟩) hlt b
    · split
      · subst a
        exact readCell_listed_append hk.2.2.2 (Nat.lt_succ_self k) b
      · rename_i hne
        have := ih hk.2.2.2
        simpa [readCell, cellAt, hne] using this

theorem readCell_writeCell {lo : Nat} {m : Memory} (hm : wfFrom fb lo m = true) (a a' : Nat) (b : Byte) :
    readCell fb (writeCell fb m a b) a' = if a' = a then b else readCell fb m a' := by
  split
  · subst a'; exact readCell_writeCell_self hm a b
  · exact readCell_writeCell_ne ‹_› m b

theorem wfFrom_listed_append {lo a lo' : Nat} {m : Memory} (hl : lo ≤ a) (ha : a < size) (hlt : a < lo')
    (hm : wfFrom fb lo' m = true) (b : Byte) : wfFrom fb lo (listed fb a b ++ m) = true := by
  unfold listed
  split
  · exact wfFrom_mono (by omega) hm
  · exact wfFrom_cons.mpr ⟨hl, ha, ‹_›, wfFrom_mono hlt hm⟩

/-- A write keeps the canonical form. -/
theorem wfFrom_writeCell {lo : Nat} {m : Memory} (hm : wfFrom fb lo m = true) {a : Nat} (hl : lo ≤ a) (ha : a < size)
    (b : Byte) : wfFrom fb lo (writeCell fb m a b) = true := by
  induction m generalizing lo with
  | nil => simpa [writeCell] using wfFrom_listed_append (m := []) hl ha (Nat.lt_succ_self a) rfl b
  | cons c rest ih =>
    obtain ⟨k, c⟩ := c
    have hk := wfFrom_cons.mp hm
    unfold writeCell
    split
    · rename_i hlt
      exact wfFrom_listed_append hl ha hlt (wfFrom_cons.mpr ⟨le_refl k, hk.2⟩) b
    · split
      · subst a
        exact wfFrom_listed_append hl ha (Nat.lt_succ_self k) hk.2.2.2 b
      · exact wfFrom_cons.mpr ⟨hk.1, hk.2.1, hk.2.2.1, ih hk.2.2.2 (by omega)⟩

theorem wf_writeCell {m : Memory} (hm : wf fb m = true) {a : Nat} (ha : a < size) (b : Byte) :
    wf fb (writeCell fb m a b) = true := wfFrom_writeCell hm (Nat.zero_le a) ha b

end Memory

namespace State

/-- The canonical form of a state's memory (log 10). -/
abbrev MemWf (s : State) : Prop := Memory.wf s.cfg.fontBase s.M = true

@[simp] theorem pokeByte_cfg (s : State) (a : Nat) (b : Byte) : (s.pokeByte a b).cfg = s.cfg := rfl

@[simp] theorem writeByte_cfg (s : State) (a : Nat) (b : Byte) : (s.writeByte a b).cfg = s.cfg := by
  unfold writeByte; split <;> rfl

theorem readByte_mod (s : State) (a : Nat) : s.readByte (a % 4096) = s.readByte a := by
  simp [readByte, Memory.size]

theorem memWf_pokeByte {s : State} (h : s.MemWf) (a : Nat) (b : Byte) : (s.pokeByte a b).MemWf :=
  Memory.wf_writeCell h (Nat.mod_lt _ (by decide)) b

theorem memWf_writeByte {s : State} (h : s.MemWf) (a : Nat) (b : Byte) : (s.writeByte a b).MemWf := by
  unfold writeByte
  split
  · exact h
  · exact memWf_pokeByte h a b

theorem memWf_storeBytes {s : State} (h : s.MemWf) (a : Nat) (bs : List Byte) : (s.storeBytes a bs).MemWf := by
  induction bs generalizing s a with
  | nil => exact h
  | cons b rest ih => exact ih (memWf_writeByte h a b) _

theorem memWf_pokeBytes {s : State} (h : s.MemWf) (a : Nat) (bs : List Byte) : (s.pokeBytes a bs).MemWf := by
  induction bs generalizing s a with
  | nil => exact h
  | cons b rest ih => exact ih (memWf_pokeByte h a b) _

theorem memWf_memWrite {s : State} (h : s.MemWf) (a n : Nat) (v : BitVec (8 * n)) : (s.memWrite a n v).MemWf :=
  memWf_storeBytes h a _

theorem readByte_pokeByte_ne (s : State) {a a' : Nat} (h : a' % 4096 ≠ a % 4096) (b : Byte) :
    (s.pokeByte a b).readByte a' = s.readByte a' := Memory.readCell_writeCell_ne h s.M b

theorem readByte_pokeByte {s : State} (hw : s.MemWf) (a a' : Nat) (b : Byte) :
    (s.pokeByte a b).readByte a' = if a' % 4096 = a % 4096 then b else s.readByte a' :=
  Memory.readCell_writeCell hw (a % 4096) (a' % 4096) b

theorem readByte_writeByte_ne (s : State) {a a' : Nat} (h : a' % 4096 ≠ a % 4096) (b : Byte) :
    (s.writeByte a b).readByte a' = s.readByte a' := by
  unfold writeByte
  split
  · rfl
  · exact readByte_pokeByte_ne s h b

/-- A read of a byte an instruction wrote: the byte, or the old one where the font policy drops the write (20_memory.md
R29). -/
theorem readByte_writeByte_self {s : State} (hw : s.MemWf) {a a' : Nat} (h : a' % 4096 = a % 4096) (b : Byte) :
    (s.writeByte a b).readByte a' = if fontProtected s.cfg (a % 4096) then s.readByte a' else b := by
  by_cases hp : fontProtected s.cfg (a % 4096) = true
  · rw [writeByte, if_pos (show fontProtected s.cfg (a % Memory.size) = true from hp), if_pos hp]
  · rw [writeByte, if_neg (show ¬ fontProtected s.cfg (a % Memory.size) = true from hp), if_neg hp,
      readByte_pokeByte hw, if_pos h]

@[simp] theorem storeBytes_cfg (s : State) (a : Nat) (bs : List Byte) : (s.storeBytes a bs).cfg = s.cfg := by
  induction bs generalizing s a with
  | nil => rfl
  | cons b rest ih => rw [storeBytes, ih, writeByte_cfg]

@[simp] theorem pokeBytes_cfg (s : State) (a : Nat) (bs : List Byte) : (s.pokeBytes a bs).cfg = s.cfg := by
  induction bs generalizing s a with
  | nil => rfl
  | cons b rest ih => rw [pokeBytes, ih, pokeByte_cfg]

/-- A sequence of single-byte writes leaves every byte outside it alone. -/
theorem readByte_storeBytes_out (s : State) (a : Nat) (bs : List Byte) {a' : Nat}
    (h : ∀ k, k < bs.length → a' % 4096 ≠ (a + k) % 4096) : (s.storeBytes a bs).readByte a' = s.readByte a' := by
  induction bs generalizing s a with
  | nil => rfl
  | cons b rest ih =>
    rw [storeBytes, ih, readByte_writeByte_ne]
    · simpa using h 0 (by simp)
    · intro k hk
      have := h (k + 1) (by simpa using hk)
      rwa [Nat.add_assoc, Nat.add_comm 1 k]

/-- Byte `k` of a sequence of at most 4096 single-byte writes. -/
theorem readByte_storeBytes_in {s : State} (hw : s.MemWf) (a : Nat) (bs : List Byte) (hl : bs.length ≤ 4096) {k : Nat}
    (hk : k < bs.length) {a' : Nat} (h : a' % 4096 = (a + k) % 4096) :
    (s.storeBytes a bs).readByte a' = if fontProtected s.cfg ((a + k) % 4096) then s.readByte a' else bs[k] := by
  induction bs generalizing s a k with
  | nil => simp at hk
  | cons b rest ih =>
    rw [storeBytes]
    cases k with
    | zero =>
      rw [readByte_storeBytes_out, readByte_writeByte_self hw (by simpa using h)]
      · simp
      · intro j hj; simp only [List.length_cons] at hl; omega
    | succ k =>
      have hk' : k < rest.length := by simpa using hk
      rw [ih (memWf_writeByte hw a b) (a + 1) (by simp at hl; omega) hk' (by rw [h]; congr 1; omega)]
      have e : a + 1 + k = a + (k + 1) := by omega
      rw [readByte_writeByte_ne _ (by simp at hl; omega)]
      simp [e]

theorem readByte_pokeBytes_out (s : State) (a : Nat) (bs : List Byte) {a' : Nat}
    (h : ∀ k, k < bs.length → a' % 4096 ≠ (a + k) % 4096) : (s.pokeBytes a bs).readByte a' = s.readByte a' := by
  induction bs generalizing s a with
  | nil => rfl
  | cons b rest ih =>
    rw [pokeBytes, ih, readByte_pokeByte_ne]
    · simpa using h 0 (by simp)
    · intro k hk
      have := h (k + 1) (by simpa using hk)
      rwa [Nat.add_assoc, Nat.add_comm 1 k]

theorem readByte_pokeBytes_in {s : State} (hw : s.MemWf) (a : Nat) (bs : List Byte) (hl : bs.length ≤ 4096) {k : Nat}
    (hk : k < bs.length) {a' : Nat} (h : a' % 4096 = (a + k) % 4096) : (s.pokeBytes a bs).readByte a' = bs[k] := by
  induction bs generalizing s a k with
  | nil => simp at hk
  | cons b rest ih =>
    rw [pokeBytes]
    cases k with
    | zero =>
      rw [readByte_pokeBytes_out, readByte_pokeByte hw, if_pos (by simpa using h)]
      · simp
      · intro j hj; simp only [List.length_cons] at hl; omega
    | succ k =>
      have hk' : k < rest.length := by simpa using hk
      rw [ih (memWf_pokeByte hw a b) (a + 1) (by simp at hl; omega) hk' (by rw [h]; congr 1; omega)]
      simp

theorem memRead_succ (s : State) (a n : Nat) : s.memRead a (n + 1) = s.memRead a n ++ s.readByte (a + n) := rfl

end State

end Sys2Proof.Machine
end

