-- ==== Sys2Proof/Laws/HostOps.lean ====
section
/-! SUPPORT. What a stop and a program load can do (60_exceptions.md R95; 20_memory.md R40). -/

namespace Sys2Proof.Machine

namespace State

/-- In Halted a later stop changes nothing. -/
theorem raiseUnlessHalted_of_halted {s : State} {h : HaltRecord} (hs : s.st = .halted h) (k : HaltKind)
    (op a : Option Word) : s.raiseUnlessHalted k op a = s := by
  rw [raiseUnlessHalted, hs]

/-- In Running and AwaitingKey it is `raiseHalt`. -/
theorem raiseUnlessHalted_of_not_halted {s : State} (hs : ∀ h, s.st ≠ .halted h) (k : HaltKind) (op a : Option Word) :
    s.raiseUnlessHalted k op a = s.raiseHalt k op a := by
  unfold raiseUnlessHalted
  split
  · exact absurd ‹_› (hs _)
  · rfl
  · rfl

end State

@[simp] theorem loadBase_none (c : Config) : loadBase c none = c.loadAddr.toNat := rfl

@[simp] theorem loadBase_some (c : Config) (base : Nat) : loadBase c (some base) = base := rfl

theorem loadAdmitted_iff (s : State) (base : Nat) :
    loadAdmitted s base = true ↔ s.loaded = false ∧ 0x200 ≤ base ∧ base ≤ 0xFFF := by
  simp [loadAdmitted, and_assoc]

/-- A load that is not admitted is refused. -/
theorem loadProgram_not_admitted {s : State} {base : Nat} (h : ¬ (s.loaded = false ∧ 0x200 ≤ base ∧ base ≤ 0xFFF))
    (bytes : List Byte) : loadProgram bytes base s = .refused .loadNotAdmitted := by
  rw [loadProgram, if_neg (by rwa [loadAdmitted_iff])]

/-- An admitted load that does not fit keeps memory and PC. -/
theorem loadProgram_too_large {s : State} {base : Nat} (h : s.loaded = false ∧ 0x200 ≤ base ∧ base ≤ 0xFFF)
    {bytes : List Byte} (hl : 4096 < base + bytes.length) :
    loadProgram bytes base s =
      .next ((s.setLoaded true).raiseHalt .programTooLarge none (some (BitVec.ofNat 16 base))) := by
  have hr : loadReply bytes base = .programTooLarge := if_pos hl
  rw [loadProgram, if_pos ((loadAdmitted_iff s base).mpr h), hr]

/-- An admitted load that fits copies the bytes and sets PC. -/
theorem loadProgram_fits {s : State} {base : Nat} (h : s.loaded = false ∧ 0x200 ≤ base ∧ base ≤ 0xFFF)
    {bytes : List Byte} (hl : base + bytes.length ≤ 4096) :
    loadProgram bytes base s = .next (((s.setLoaded true).pokeBytes base bytes).setPC (BitVec.ofNat 16 base)) := by
  have hr : loadReply bytes base = .ok := if_neg (Nat.not_lt.mpr hl)
  rw [loadProgram, if_pos ((loadAdmitted_iff s base).mpr h), hr]

/-- Everything an answered load can do. -/
theorem loadProgram_cases {s t : State} {bytes : List Byte} {base : Nat} (h : loadProgram bytes base s = .next t) :
    (s.loaded = false ∧ 0x200 ≤ base ∧ base ≤ 0xFFF) ∧
    ((4096 < base + bytes.length ∧
        t = (s.setLoaded true).raiseHalt .programTooLarge none (some (BitVec.ofNat 16 base))) ∨
      (base + bytes.length ≤ 4096 ∧
        t = ((s.setLoaded true).pokeBytes base bytes).setPC (BitVec.ofNat 16 base))) := by
  by_cases ha : s.loaded = false ∧ 0x200 ≤ base ∧ base ≤ 0xFFF
  · refine ⟨ha, ?_⟩
    rcases Nat.lt_or_ge 4096 (base + bytes.length) with hl | hl
    · rw [loadProgram_too_large ha hl] at h
      cases h
      exact .inl ⟨hl, rfl⟩
    · rw [loadProgram_fits ha hl] at h
      cases h
      exact .inr ⟨hl, rfl⟩
  · rw [loadProgram_not_admitted ha] at h
    cases h

end Sys2Proof.Machine
end

