-- ==== Sys2Proof/Laws/Keys.lean ====
section
/-! SUPPORT. The key a poll takes (40_pipeline.md R51). -/

namespace Sys2Proof.Machine

theorem allRegs_lt_sorted : State.allRegs.Pairwise (· < ·) := by decide

theorem mem_allRegs (k : Reg) : k ∈ State.allRegs := by revert k; decide

theorem lowestKey_eq_none {s : State} : lowestKey s = none ↔ ∀ k : Key, s.K[k] = false := by
  simp only [lowestKey, List.find?_eq_none, Bool.not_eq_true]
  exact ⟨fun h k => h k (mem_allRegs k), fun h k _ => h k⟩

theorem lowestKey_eq_some {s : State} {k : Key} :
    lowestKey s = some k ↔ s.K[k] = true ∧ ∀ j : Key, j < k → s.K[j] = false := by
  simp only [lowestKey, List.find?_eq_some_iff_append, Bool.not_eq_eq_eq_not, Bool.not_true]
  have hs := allRegs_lt_sorted
  constructor
  · rintro ⟨hk, as, bs, e, h⟩
    refine ⟨hk, fun j hj => h j ?_⟩
    have hm := mem_allRegs j
    rw [e] at hm hs
    rcases List.mem_append.mp hm with h' | h'
    · exact h'
    · rcases List.mem_cons.mp h' with rfl | h''
      · exact absurd hj (lt_irrefl _)
      · have := (List.pairwise_cons.mp (List.pairwise_append.mp hs).2.1).1 j h''
        exact absurd (hj.trans this) (lt_irrefl _)
  · rintro ⟨hk, h⟩
    obtain ⟨as, bs, e⟩ := List.append_of_mem (mem_allRegs k)
    refine ⟨hk, as, bs, e, fun j hj => h j ?_⟩
    rw [e] at hs
    exact (List.pairwise_append.mp hs).2.2 j hj k (by simp)

theorem poll_none {s : State} (h : ∀ k : Key, s.K[k] = false) (t : Reg) : poll t s = s := by
  rw [poll, lowestKey_eq_none.mpr h]

theorem poll_some {s : State} {k : Key} (hk : s.K[k] = true) (h : ∀ j : Key, j < k → s.K[j] = false) (t : Reg) :
    poll t s = (s.setV t (BitVec.ofNat 8 k.val)).setSt .running := by
  rw [poll, lowestKey_eq_some.mpr ⟨hk, h⟩]

theorem onlyChanges_poll (t : Reg) (s : State) : OnlyChanges [.V, .st] s (poll t s) := by
  unfold poll
  split
  · exact OnlyChanges.refl _ _
  · exact ((State.onlyChanges_setV s t _).mono (by simp)).trans ((State.onlyChanges_setSt _ _).mono (by simp))

end Sys2Proof.Machine
end

