-- ==== Sys2Proof/Laws/PerInstr.lean ====
section
/-! SUPPORT. Families of statements about each instruction as syntax, one lemma per constructor.
`MatchesRow`: the encoding of a well-formed instruction has the fixed bits of its row of the opcode table. -/

namespace Sys2Proof.Laws.MatchesRow

/-- The encoding of `i` matches the mask and value of its row (30_encoding.md R45), for both values of STRICT_5_9. -/
def Statement (i : Instr) : Prop :=
  ∀ strict59 : Bool, i.WellFormed strict59 = true → (rowOf strict59 i).matchesWord (encode i) = true

theorem cls : Statement .cls :=
  fun _ _ => (matchesWord_FFFF _ _ _).mpr rfl

theorem ret : Statement .ret :=
  fun _ _ => (matchesWord_FFFF _ _ _).mpr rfl

theorem jp (nnn : Addr) : Statement (.jp nnn) :=
  fun _ _ => (matchesWord_F000 _ _ _ 0x1 rfl).mpr (opClass_wordNNN _ _)

theorem call (nnn : Addr) : Statement (.call nnn) :=
  fun _ _ => (matchesWord_F000 _ _ _ 0x2 rfl).mpr (opClass_wordNNN _ _)

theorem seImm (x : Reg) (nn : Byte) : Statement (.seImm x nn) :=
  fun _ _ => (matchesWord_F000 _ _ _ 0x3 rfl).mpr (opClass_wordXNN _ _ _)

theorem sneImm (x : Reg) (nn : Byte) : Statement (.sneImm x nn) :=
  fun _ _ => (matchesWord_F000 _ _ _ 0x4 rfl).mpr (opClass_wordXNN _ _ _)

theorem seReg (x : Reg) (y : Reg) (n : Nibble) : Statement (.seReg x y n) :=
  by
  rintro (_ | _) hw
  · exact (matchesWord_F000 _ _ _ 0x5 rfl).mpr (opClass_wordXYN _ _ _ _)
  · have hn : n = 0 := by simpa [Instr.WellFormed, Instr.lowNibbleAdmitted] using hw
    exact (matchesWord_F00F _ _ _ 0x5 0x0 rfl).mpr ⟨opClass_wordXYN _ _ _ _, (opN_wordXYN _ _ _ _).trans hn⟩

theorem ldImm (x : Reg) (nn : Byte) : Statement (.ldImm x nn) :=
  fun _ _ => (matchesWord_F000 _ _ _ 0x6 rfl).mpr (opClass_wordXNN _ _ _)

theorem addImm (x : Reg) (nn : Byte) : Statement (.addImm x nn) :=
  fun _ _ => (matchesWord_F000 _ _ _ 0x7 rfl).mpr (opClass_wordXNN _ _ _)

theorem ldReg (x : Reg) (y : Reg) : Statement (.ldReg x y) :=
  fun _ _ => (matchesWord_F00F _ _ _ 0x8 0x0 rfl).mpr ⟨opClass_wordXYN _ _ _ _, opN_wordXYN _ _ _ _⟩

theorem orReg (x : Reg) (y : Reg) : Statement (.orReg x y) :=
  fun _ _ => (matchesWord_F00F _ _ _ 0x8 0x1 rfl).mpr ⟨opClass_wordXYN _ _ _ _, opN_wordXYN _ _ _ _⟩

theorem andReg (x : Reg) (y : Reg) : Statement (.andReg x y) :=
  fun _ _ => (matchesWord_F00F _ _ _ 0x8 0x2 rfl).mpr ⟨opClass_wordXYN _ _ _ _, opN_wordXYN _ _ _ _⟩

theorem xorReg (x : Reg) (y : Reg) : Statement (.xorReg x y) :=
  fun _ _ => (matchesWord_F00F _ _ _ 0x8 0x3 rfl).mpr ⟨opClass_wordXYN _ _ _ _, opN_wordXYN _ _ _ _⟩

theorem addReg (x : Reg) (y : Reg) : Statement (.addReg x y) :=
  fun _ _ => (matchesWord_F00F _ _ _ 0x8 0x4 rfl).mpr ⟨opClass_wordXYN _ _ _ _, opN_wordXYN _ _ _ _⟩

theorem sub (x : Reg) (y : Reg) : Statement (.sub x y) :=
  fun _ _ => (matchesWord_F00F _ _ _ 0x8 0x5 rfl).mpr ⟨opClass_wordXYN _ _ _ _, opN_wordXYN _ _ _ _⟩

theorem shr (x : Reg) (y : Reg) : Statement (.shr x y) :=
  fun _ _ => (matchesWord_F00F _ _ _ 0x8 0x6 rfl).mpr ⟨opClass_wordXYN _ _ _ _, opN_wordXYN _ _ _ _⟩

theorem subn (x : Reg) (y : Reg) : Statement (.subn x y) :=
  fun _ _ => (matchesWord_F00F _ _ _ 0x8 0x7 rfl).mpr ⟨opClass_wordXYN _ _ _ _, opN_wordXYN _ _ _ _⟩

theorem shl (x : Reg) (y : Reg) : Statement (.shl x y) :=
  fun _ _ => (matchesWord_F00F _ _ _ 0x8 0xe rfl).mpr ⟨opClass_wordXYN _ _ _ _, opN_wordXYN _ _ _ _⟩

theorem sneReg (x : Reg) (y : Reg) (n : Nibble) : Statement (.sneReg x y n) :=
  by
  rintro (_ | _) hw
  · exact (matchesWord_F000 _ _ _ 0x9 rfl).mpr (opClass_wordXYN _ _ _ _)
  · have hn : n = 0 := by simpa [Instr.WellFormed, Instr.lowNibbleAdmitted] using hw
    exact (matchesWord_F00F _ _ _ 0x9 0x0 rfl).mpr ⟨opClass_wordXYN _ _ _ _, (opN_wordXYN _ _ _ _).trans hn⟩

theorem ldI (nnn : Addr) : Statement (.ldI nnn) :=
  fun _ _ => (matchesWord_F000 _ _ _ 0xa rfl).mpr (opClass_wordNNN _ _)

theorem jpV (x : Reg) (nnn : Addr) : Statement (.jpV x nnn) :=
  fun _ _ => (matchesWord_F000 _ _ _ 0xb rfl).mpr (opClass_wordNNN _ _)

theorem rnd (x : Reg) (nn : Byte) : Statement (.rnd x nn) :=
  fun _ _ => (matchesWord_F000 _ _ _ 0xc rfl).mpr (opClass_wordXNN _ _ _)

theorem drw (x : Reg) (y : Reg) (n : Fin 16) : Statement (.drw x y n) :=
  fun _ _ => (matchesWord_F000 _ _ _ 0xd rfl).mpr (opClass_wordXYN _ _ _ _)

theorem skp (x : Reg) : Statement (.skp x) :=
  fun _ _ => (matchesWord_F0FF _ _ _ 0xe 0x9e rfl).mpr ⟨opClass_wordXNN _ _ _, opNN_wordXNN _ _ _⟩

theorem sknp (x : Reg) : Statement (.sknp x) :=
  fun _ _ => (matchesWord_F0FF _ _ _ 0xe 0xa1 rfl).mpr ⟨opClass_wordXNN _ _ _, opNN_wordXNN _ _ _⟩

theorem ldVDt (x : Reg) : Statement (.ldVDt x) :=
  fun _ _ => (matchesWord_F0FF _ _ _ 0xf 0x7 rfl).mpr ⟨opClass_wordXNN _ _ _, opNN_wordXNN _ _ _⟩

theorem ldK (x : Reg) : Statement (.ldK x) :=
  fun _ _ => (matchesWord_F0FF _ _ _ 0xf 0xa rfl).mpr ⟨opClass_wordXNN _ _ _, opNN_wordXNN _ _ _⟩

theorem ldDt (x : Reg) : Statement (.ldDt x) :=
  fun _ _ => (matchesWord_F0FF _ _ _ 0xf 0x15 rfl).mpr ⟨opClass_wordXNN _ _ _, opNN_wordXNN _ _ _⟩

theorem ldSt (x : Reg) : Statement (.ldSt x) :=
  fun _ _ => (matchesWord_F0FF _ _ _ 0xf 0x18 rfl).mpr ⟨opClass_wordXNN _ _ _, opNN_wordXNN _ _ _⟩

theorem addI (x : Reg) : Statement (.addI x) :=
  fun _ _ => (matchesWord_F0FF _ _ _ 0xf 0x1e rfl).mpr ⟨opClass_wordXNN _ _ _, opNN_wordXNN _ _ _⟩

theorem ldF (x : Reg) : Statement (.ldF x) :=
  fun _ _ => (matchesWord_F0FF _ _ _ 0xf 0x29 rfl).mpr ⟨opClass_wordXNN _ _ _, opNN_wordXNN _ _ _⟩

theorem bcd (x : Reg) : Statement (.bcd x) :=
  fun _ _ => (matchesWord_F0FF _ _ _ 0xf 0x33 rfl).mpr ⟨opClass_wordXNN _ _ _, opNN_wordXNN _ _ _⟩

theorem store (x : Reg) : Statement (.store x) :=
  fun _ _ => (matchesWord_F0FF _ _ _ 0xf 0x55 rfl).mpr ⟨opClass_wordXNN _ _ _, opNN_wordXNN _ _ _⟩

theorem load (x : Reg) : Statement (.load x) :=
  fun _ _ => (matchesWord_F0FF _ _ _ 0xf 0x65 rfl).mpr ⟨opClass_wordXNN _ _ _, opNN_wordXNN _ _ _⟩

end Sys2Proof.Laws.MatchesRow
end

