-- ==== Sys2Proof/Laws/Transfer.lean ====
section
/-! SUPPORT. The register lists of Fx55 and Fx65 and the loads of Fx65 (45_timers_index_memory.md R89, R90). -/

namespace Sys2Proof.Machine

namespace State

theorem mem_regsUpTo (x i : Reg) : i ∈ regsUpTo x ↔ i ≤ x := by revert x i; decide

@[simp] theorem length_regsUpTo (x : Reg) : (regsUpTo x).length = x.val + 1 := by revert x; decide

theorem getElem?_regsUpTo (x i : Reg) (h : i ≤ x) : (regsUpTo x)[i.val]? = some i := by revert x i; decide

/-- Byte `i` of the bytes Fx55 stores is V[i]. -/
theorem getElem_map_regsUpTo (s : State) (x i : Reg) (h : i.val < ((regsUpTo x).map s.getV).length) :
    ((regsUpTo x).map s.getV)[i.val] = s.getV i := by
  have hi : i ≤ x := by
    rw [List.length_map, length_regsUpTo] at h
    exact Fin.le_def.mpr (by omega)
  have hl : i.val < (regsUpTo x).length := by simpa using h
  have := getElem?_regsUpTo x i hi
  rw [List.getElem?_eq_getElem hl] at this
  rw [List.getElem_map, Option.some.inj this]

end State

/-- Loads write registers only. -/
theorem onlyChanges_loadRegs (s : State) (is : List Reg) : OnlyChanges [.V] s (loadRegs s is) := by
  induction is generalizing s with
  | nil => exact OnlyChanges.refl _ _
  | cons i rest ih => exact (State.onlyChanges_setV s i _).trans (ih _)

@[simp] theorem loadRegs_I (s : State) (is : List Reg) : (loadRegs s is).I = s.I :=
  onlyChanges_loadRegs s is .I (by simp)

/-- Each listed register holds its byte at I + i; the others are as before. -/
theorem getV_loadRegs (s : State) (is : List Reg) (r : Reg) :
    (loadRegs s is).getV r = if r ∈ is then s.readByte (s.I.toNat + r.val) else s.getV r := by
  induction is generalizing s with
  | nil => simp [loadRegs]
  | cons i rest ih =>
    have h : loadRegs s (i :: rest) = loadRegs (s.setV i (s.readByte (s.I.toNat + i.val))) rest := rfl
    rw [h, ih]
    by_cases hr : r ∈ rest
    · simp [hr]
    · by_cases hi : r = i
      · subst hi; simp [hr]
      · simp [hr, hi, State.getV_setV]

end Sys2Proof.Machine
end

