-- ==== Sys2Proof/Laws/Step.lean ====
section
/-! SUPPORT. The step by executor state, what it fetches, and what the host places where it fetches. -/

namespace Sys2Proof.Machine

namespace State

theorem onlyChanges_beginStep (s : State) : OnlyChanges [.dirty, .loaded] s s.beginStep :=
  ((onlyChanges_setDirty s false).mono (by simp)).trans ((onlyChanges_setLoaded _ true).mono (by simp))

@[simp] theorem beginStep_dirty (s : State) : s.beginStep.dirty = false := rfl
@[simp] theorem beginStep_loaded (s : State) : s.beginStep.loaded = true := rfl
@[simp] theorem beginStep_PC (s : State) : s.beginStep.PC = s.PC := rfl
@[simp] theorem beginStep_SP (s : State) : s.beginStep.SP = s.SP := rfl
@[simp] theorem beginStep_S (s : State) : s.beginStep.S = s.S := rfl
@[simp] theorem beginStep_K (s : State) : s.beginStep.K = s.K := rfl
@[simp] theorem beginStep_M (s : State) : s.beginStep.M = s.M := rfl
@[simp] theorem beginStep_st (s : State) : s.beginStep.st = s.st := rfl
@[simp] theorem beginStep_cfg (s : State) : s.beginStep.cfg = s.cfg := rfl
@[simp] theorem fetch_beginStep (s : State) : s.beginStep.fetch = s.fetch := rfl
@[simp] theorem readByte_beginStep (s : State) (a : Nat) : s.beginStep.readByte a = s.readByte a := rfl
@[simp] theorem getV_beginStep (s : State) (r : Reg) : s.beginStep.getV r = s.getV r := rfl

@[simp] theorem advancePC_cfg (s : State) : s.advancePC.cfg = s.cfg := rfl
@[simp] theorem advancePC_M (s : State) : s.advancePC.M = s.M := rfl
@[simp] theorem advancePC_SP (s : State) : s.advancePC.SP = s.SP := rfl
@[simp] theorem advancePC_S (s : State) : s.advancePC.S = s.S := rfl
@[simp] theorem advancePC_st (s : State) : s.advancePC.st = s.st := rfl
@[simp] theorem advancePC_dirty (s : State) : s.advancePC.dirty = s.dirty := rfl
@[simp] theorem advancePC_loaded (s : State) : s.advancePC.loaded = s.loaded := rfl
@[simp] theorem readByte_advancePC (s : State) (a : Nat) : s.advancePC.readByte a = s.readByte a := rfl
@[simp] theorem getV_advancePC (s : State) (r : Reg) : s.advancePC.getV r = s.getV r := rfl

end State

theorem step_halted {s : State} {h : HaltRecord} (hs : s.st = .halted h) : step s = .next s.beginStep := by
  rw [step, hs]

theorem step_awaitingKey {s : State} {t : Reg} (hs : s.st = .awaitingKey t) : step s = .next (poll t s.beginStep) := by
  rw [step, hs]

theorem step_running {s : State} (hs : s.st = .running) : step s = s.beginStep.runOne := by
  rw [step, hs]

theorem runOne_known {s : State} {i : Instr} (hd : decode s.cfg.strict59 s.fetch = .known i) :
    s.runOne = exec i s.advancePC := by
  rw [State.runOne, hd]

theorem runOne_unknown {s : State} {op : Word} (hd : decode s.cfg.strict59 s.fetch = .unknown op) :
    s.runOne = execUnknown op s.advancePC := by
  rw [State.runOne, hd]

theorem toNat_fetch (s : State) :
    s.fetch.toNat = (s.readByte s.PC.toNat).toNat * 256 + (s.readByte (s.PC.toNat + 1)).toNat := by
  have e : s.fetch.toNat = (s.memRead s.PC.toNat 1).toNat * 2 ^ 8 + (s.readByte (s.PC.toNat + 1)).toNat :=
    toNat_append_eq _ _
  have e1 : (s.memRead s.PC.toNat 1).toNat = (0#0).toNat * 2 ^ 8 + (s.readByte (s.PC.toNat + 0)).toNat :=
    toNat_append_eq _ _
  rw [e, e1]
  simp

/-- An instruction the host places is the one the next step fetches (log 28). -/
theorem fetch_withFetchWord {s : State} (hw : s.MemWf) (w : Nat) :
    (s.withFetchWord 16 w).fetch = BitVec.ofNat 16 w := by
  set t := s.withFetchWord 16 w with ht
  have hPC : t.PC = s.PC := State.onlyChanges_pokeBytes s _ _ .PC (by simp)
  have hop : BitVec.ofNat 16 (w % 2 ^ 16) = BitVec.ofNat 16 w := by
    apply BitVec.eq_of_toNat_eq; simp
  have key : ∀ k : Nat, k < 2 → ∀ b, [firstByte (BitVec.ofNat 16 w), secondByte (BitVec.ofNat 16 w)][k]? = some b →
      t.readByte (s.PC.toNat + k) = b := by
    intro k hk b hb
    have hk' : k < [firstByte (BitVec.ofNat 16 w), secondByte (BitVec.ofNat 16 w)].length := by simpa using hk
    have := State.readByte_pokeBytes_in hw s.PC.toNat
      [firstByte (BitVec.ofNat 16 w), secondByte (BitVec.ofNat 16 w)] (by simp) hk' (a' := s.PC.toNat + k) rfl
    rw [List.getElem?_eq_getElem hk'] at hb
    rw [ht]
    simp only [State.withFetchWord, State.readByte_setSt, hop]
    rw [this]
    exact Option.some.inj hb
  apply BitVec.eq_of_toNat_eq
  rw [toNat_fetch, hPC, ← Nat.add_zero s.PC.toNat, key 0 (by omega) _ rfl, Nat.add_zero, key 1 (by omega) _ rfl,
    ← toNat_opcodeOfBytes, opcodeOfBytes_bytes]

end Sys2Proof.Machine
end

