-- ==== Sys2Proof/Tests/Slice0.lean ====
section
/-! SUPPORT. Tests: ill-formed terms, words written out from the encodings of 30_encoding.md R45, one-step vectors of
95_test_vectors.md (V<n>), and the witnesses that the hypotheses of the obligations can be met. -/

namespace Sys2Proof.Tests

open Sys2Proof Sys2Proof.Machine

/-! ### Helpers -/

/-- The reset state with the parameters changed by `f`. -/
def withCfg (f : Config → Config) : State := State.initial (f Config.standard) 0

/-- The state after one step (every step has one). -/
def after (s : State) : State :=
  match step s with
  | .next t => t
  | .fault _ => s
  | .refused _ => s

/-- The state after one host operation, the same state where it is refused. -/
def afterOp (op : HostOp) (s : State) : State :=
  match applyOp op s with
  | .next t => t
  | .fault _ => s
  | .refused _ => s

/-- A state with the opcode `op` placed at PC. -/
def placed (op : Nat) (s : State) : State := s.withFetchWord 16 op

/-- One step of the opcode `op` placed at PC. -/
def run1 (op : Nat) (s : State) : State := after (placed op s)

/-- The operation is refused, with no move. -/
def refuses (op : HostOp) (s : State) : Bool :=
  match applyOp op s with
  | .next _ => false
  | .fault _ => false
  | .refused r => r == .loadNotAdmitted

/-- A state whose stack has `p` entries in use. -/
def withSP (p : Fin 17) : State := State.reset.setSP p

/-! ### Ill-formed terms (WellFormed) -/

theorem test_wf_refuses_jpV_register_that_is_not_the_high_nibble :
    Instr.WellFormed false (.jpV 3 0x2F0) = false ∧ Instr.WellFormed true (.jpV 3 0x2F0) = false ∧
    Instr.WellFormed false (.jpV 2 0x2F0) = true := by decide

theorem test_wf_refuses_seReg_low_nibble_under_strict59 :
    Instr.WellFormed true (.seReg 1 2 1) = false ∧ Instr.WellFormed false (.seReg 1 2 1) = true := by decide

theorem test_wf_refuses_sneReg_low_nibble_under_strict59 :
    Instr.WellFormed true (.sneReg 1 2 0xF) = false ∧ Instr.WellFormed true (.sneReg 1 2 0) = true := by decide

/-! ### Decoding: words written out from the patterns of R45 -/

theorem test_decode_class_0 :
    decode false 0x00E0 = .known .cls ∧ decode false 0x00EE = .known .ret ∧
    decode false 0x0123 = .unknown 0x0123 ∧ decode false 0x0000 = .unknown 0x0000 := by decide

theorem test_decode_classes_1_2_A_B :
    decode false 0x1ABC = .known (.jp 0xABC) ∧ decode false 0x2FED = .known (.call 0xFED) ∧
    decode false 0xA123 = .known (.ldI 0x123) ∧ decode false 0xB7C5 = .known (.jpV 7 0x7C5) := by decide

theorem test_decode_classes_3_4_6_7_C :
    decode false 0x3A42 = .known (.seImm 0xA 0x42) ∧ decode false 0x4B13 = .known (.sneImm 0xB 0x13) ∧
    decode false 0x6C80 = .known (.ldImm 0xC 0x80) ∧ decode false 0x7D01 = .known (.addImm 0xD 0x01) ∧
    decode false 0xC30F = .known (.rnd 3 0x0F) := by decide

theorem test_decode_classes_5_9 :
    decode false 0x5127 = .known (.seReg 1 2 7) ∧ decode false 0x934E = .known (.sneReg 3 4 0xE) ∧
    decode true 0x5120 = .known (.seReg 1 2 0) ∧ decode true 0x9340 = .known (.sneReg 3 4 0) ∧
    decode true 0x5127 = .unknown 0x5127 ∧ decode true 0x934E = .unknown 0x934E := by decide

theorem test_decode_class_8 :
    decode false 0x8120 = .known (.ldReg 1 2) ∧ decode false 0x8341 = .known (.orReg 3 4) ∧
    decode false 0x8562 = .known (.andReg 5 6) ∧ decode false 0x8783 = .known (.xorReg 7 8) ∧
    decode false 0x89A4 = .known (.addReg 9 0xA) ∧ decode false 0x8BC5 = .known (.sub 0xB 0xC) ∧
    decode false 0x8DE6 = .known (.shr 0xD 0xE) ∧ decode false 0x8F07 = .known (.subn 0xF 0) ∧
    decode false 0x812E = .known (.shl 1 2) := by decide

theorem test_decode_classes_D_E :
    decode false 0xD125 = .known (.drw 1 2 5) ∧ decode false 0xE59E = .known (.skp 5) ∧
    decode false 0xE6A1 = .known (.sknp 6) := by decide

theorem test_decode_class_F :
    decode false 0xF107 = .known (.ldVDt 1) ∧ decode false 0xF20A = .known (.ldK 2) ∧
    decode false 0xF315 = .known (.ldDt 3) ∧ decode false 0xF418 = .known (.ldSt 4) ∧
    decode false 0xF51E = .known (.addI 5) ∧ decode false 0xF629 = .known (.ldF 6) ∧
    decode false 0xF733 = .known (.bcd 7) ∧ decode false 0xF855 = .known (.store 8) ∧
    decode false 0xF965 = .known (.load 9) := by decide

/-- V9. -/
theorem test_decode_unassigned :
    [0x8008, 0x800F, 0xE000, 0xE09F, 0xF000, 0xF075].all (fun w => decide (decode false w = .unknown w)) = true := by
  decide

theorem test_encode_words :
    encode (.drw 1 2 5) = 0xD125 ∧ encode (.jpV 2 0x2F0) = 0xB2F0 ∧ encode (.seReg 1 2 7) = 0x5127 ∧
    encode (.load 9) = 0xF965 := by decide

theorem test_decodeTableWord :
    decodeTableWord 16 0x8124 = some (.addReg 1 2) ∧ decodeTableWord 16 0xE09E = some (.skp 0) ∧
    decodeTableWord 16 0x8008 = none ∧ decodeTableWord 16 0x00E0 = some .cls := by decide

/-- The mnemonic column of R45. -/
theorem test_assemblyText :
    assemblyText .legacy (.drw 1 0xA 5) = "DRW V1, VA, 0x5" ∧ assemblyText .legacy (.store 2) = "LD [I], V2" ∧
    assemblyText .legacy (.jpV 2 0x2F0) = "JP V0, 0x2F0" ∧ assemblyText .modern (.jpV 2 0x2F0) = "JP V2, 0x2F0" := by
  decide

/-! ### Steps (95_test_vectors.md) -/

/-- V1. -/
theorem test_fetch_big_endian :
    (State.reset.withFetchWord 16 0x1234).readByte 0x200 = 0x12 ∧
    (State.reset.withFetchWord 16 0x1234).readByte 0x201 = 0x34 ∧ (run1 0x1234 State.reset).PC = 0x234 := by decide

/-- V2. -/
theorem test_fetch_wraps :
    let s := (State.reset.setPC 0x0FFF).setV 0 0x55
    ((s.pokeByte 0xFFF 0x60).pokeByte 0x000 0x00).fetch = 0x6000 ∧ (run1 0x6000 s).getV 0 = 0x00 ∧
      (run1 0x6000 s).PC = 0x1001 := by decide

/-- V3. -/
theorem test_fetch_odd :
    (run1 0x6107 (State.reset.setPC 0x201)).getV 1 = 0x07 ∧ (run1 0x6107 (State.reset.setPC 0x201)).PC = 0x203 := by
  decide

/-- V4, V64. -/
theorem test_cls :
    let t := run1 0x00E0 ((State.reset.setPC 0xFFFE).setFB (State.togglePixel State.blankFB 63 31))
    State.pixel t.FB 63 31 = false ∧ t.dirty = true ∧ t.PC = 0x0000 := by decide

/-- V5, V6. -/
theorem test_unknown_strict :
    (after State.reset).st = .halted ⟨.invalidOpcode, some 0x0000, some 0x200⟩ ∧ (after State.reset).PC = 0x202 ∧
    (run1 0xFFFF State.reset).st = .halted ⟨.invalidOpcode, some 0xFFFF, some 0x200⟩ := by decide

/-- V7. -/
theorem test_unknown_lenient :
    let t := run1 0xFFFF (withCfg fun c => { c with unknownOpcodePolicy := .lenient })
    t.st = .running ∧ t.PC = 0x202 := by decide

/-- V11. -/
theorem test_strict59 :
    (run1 0x5121 (withCfg fun c => { c with strict59 := true })).st =
      .halted ⟨.invalidOpcode, some 0x5121, some 0x200⟩ := by decide

/-- V16, V17. -/
theorem test_jp : (run1 0x1200 State.reset).PC = 0x200 ∧ (run1 0x1201 State.reset).PC = 0x201 := by decide

/-- V18, V19. -/
theorem test_call :
    let t := run1 0x2210 (State.reset.setPC 0x204)
    let u := run1 0x2300 (State.reset.setPC 0xFFE)
    t.S[0] = 0x0206 ∧ t.SP = 1 ∧ t.PC = 0x210 ∧ u.S[0] = 0x1000 ∧ u.PC = 0x300 := by decide

/-- V21. -/
theorem test_call_overflow :
    let t := run1 0x2208 (withSP 16)
    t.st = .halted ⟨.stackOverflow, some 0x2208, some 0x200⟩ ∧ t.SP = 16 ∧ t.PC = 0x202 := by decide

/-- V23. -/
theorem test_ret :
    let t := run1 0x00EE ((State.reset.setStack 0 0x0300 1).setStack 1 0x0402 2)
    t.SP = 1 ∧ t.PC = 0x0402 ∧ t.S[1] = 0x0402 := by decide

/-- V22. -/
theorem test_ret_underflow :
    let t := run1 0x00EE State.reset
    t.st = .halted ⟨.stackUnderflow, some 0x00EE, some 0x200⟩ ∧ t.SP = 0 ∧ t.PC = 0x202 := by decide

/-- V24, V25. -/
theorem test_se_imm :
    (run1 0x3342 (State.reset.setV 3 0x42)).PC = 0x204 ∧ (run1 0x3342 (State.reset.setV 3 0x41)).PC = 0x202 := by decide

/-- V26, V27. -/
theorem test_sne_imm :
    (run1 0x4342 (State.reset.setV 3 0x41)).PC = 0x204 ∧ (run1 0x4342 (State.reset.setV 3 0x42)).PC = 0x202 := by decide

/-- V10, V29. -/
theorem test_se_reg :
    (run1 0x5121 State.reset).PC = 0x204 ∧ (run1 0x5120 ((State.reset.setV 1 0x10).setV 2 0x11)).PC = 0x202 := by decide

/-- V30. -/
theorem test_sne_reg :
    (run1 0x9120 ((State.reset.setV 1 0x10).setV 2 0x11)).PC = 0x204 ∧ (run1 0x9120 State.reset).PC = 0x202 := by decide

/-- V32. -/
theorem test_skip_wraps : (run1 0x3000 (State.reset.setPC 0xFFFC)).PC = 0x0000 := by decide

/-- V33, V34. -/
theorem test_jpV :
    let modern := withCfg fun c => { c with jumpOffsetMode := .modern }
    (run1 0xB2F0 ((State.reset.setV 0 0x04).setV 2 0x10)).PC = 0x2F4 ∧
    (run1 0xB2F0 ((modern.setV 0 0x04).setV 2 0x10)).PC = 0x300 := by decide

/-- V36. -/
theorem test_jpV_past_the_space : (run1 0xBFFF (State.reset.setV 0 0xFF)).PC = 0x10FE := by decide

/-- V37. -/
theorem test_ld_imm : (run1 0x6A42 State.reset).getV 0xA = 0x42 := by decide

/-- V38, V40. -/
theorem test_add_imm :
    let t := run1 0x7001 ((State.reset.setV 0 0xFF).setV 0xF 0x77)
    t.getV 0 = 0x00 ∧ t.getV 0xF = 0x77 ∧ (run1 0x7F01 (State.reset.setV 0xF 0x10)).getV 0xF = 0x11 := by decide

/-- V41. -/
theorem test_ld_reg : (run1 0x8120 (State.reset.setV 2 0x09)).getV 1 = 0x09 := by decide

/-- V42. -/
theorem test_or :
    let on := withCfg fun c => { c with logicQuirkResetVf := true }
    let s := fun b : State => ((b.setV 1 0x0F).setV 2 0xF0).setV 0xF 0x33
    (run1 0x8121 (s State.reset)).getV 1 = 0xFF ∧ (run1 0x8121 (s State.reset)).getV 0xF = 0x33 ∧
    (run1 0x8121 (s on)).getV 1 = 0xFF ∧ (run1 0x8121 (s on)).getV 0xF = 0x00 := by decide

/-- V46. -/
theorem test_or_into_vf :
    let on := withCfg fun c => { c with logicQuirkResetVf := true }
    (run1 0x8F11 ((State.reset.setV 0xF 0x0F).setV 1 0xF0)).getV 0xF = 0xFF ∧
    (run1 0x8F11 ((on.setV 0xF 0x0F).setV 1 0xF0)).getV 0xF = 0x00 := by decide

/-- V43. -/
theorem test_and : (run1 0x8122 ((State.reset.setV 1 0x3C).setV 2 0x0F)).getV 1 = 0x0C := by decide

/-- V44, V45. -/
theorem test_xor :
    (run1 0x8123 ((State.reset.setV 1 0xFF).setV 2 0x0F)).getV 1 = 0xF0 ∧
    (run1 0x8113 (State.reset.setV 1 0x5A)).getV 1 = 0x00 := by decide

/-- V47, V48. -/
theorem test_add :
    let t := run1 0x8334 (State.reset.setV 3 0x80)
    let u := run1 0x8124 ((State.reset.setV 1 0x7F).setV 2 0x80)
    t.getV 3 = 0x00 ∧ t.getV 0xF = 1 ∧ u.getV 1 = 0xFF ∧ u.getV 0xF = 0 := by decide

/-- V49, V50. -/
theorem test_add_with_vf :
    let t := run1 0x8F14 ((State.reset.setV 0xF 0xFF).setV 1 0x01)
    let u := run1 0x81F4 ((State.reset.setV 1 0x10).setV 0xF 0xF0)
    t.getV 0xF = 0x01 ∧ u.getV 1 = 0x00 ∧ u.getV 0xF = 1 := by decide

/-- V51, V52. -/
theorem test_sub :
    let t := run1 0x8125 ((State.reset.setV 1 0x33).setV 2 0x33)
    let u := run1 0x8125 ((State.reset.setV 1 0x00).setV 2 0x01)
    t.getV 1 = 0x00 ∧ t.getV 0xF = 1 ∧ u.getV 1 = 0xFF ∧ u.getV 0xF = 0 := by decide

/-- V53. -/
theorem test_sub_into_vf : (run1 0x8F15 ((State.reset.setV 0xF 0x05).setV 1 0x01)).getV 0xF = 0x01 := by decide

/-- V54, V55. -/
theorem test_subn :
    let t := run1 0x8127 ((State.reset.setV 1 0x01).setV 2 0x05)
    let u := run1 0x8127 ((State.reset.setV 1 0x05).setV 2 0x01)
    t.getV 1 = 0x04 ∧ t.getV 0xF = 1 ∧ u.getV 1 = 0xFC ∧ u.getV 0xF = 0 := by decide

/-- V56. -/
theorem test_shr :
    let legacy := withCfg fun c => { c with shiftMode := .legacy }
    let t := run1 0x8126 ((State.reset.setV 1 0x05).setV 2 0x08)
    let u := run1 0x8126 ((legacy.setV 1 0x05).setV 2 0x08)
    t.getV 1 = 0x02 ∧ t.getV 0xF = 1 ∧ u.getV 1 = 0x04 ∧ u.getV 0xF = 0 := by decide

/-- V58. -/
theorem test_shr_into_vf : (run1 0x8F06 (State.reset.setV 0xF 0x03)).getV 0xF = 0x01 := by decide

/-- V60. -/
theorem test_shl :
    let legacy := withCfg fun c => { c with shiftMode := .legacy }
    let t := run1 0x812E ((State.reset.setV 1 0x40).setV 2 0x80)
    let u := run1 0x812E ((legacy.setV 1 0x40).setV 2 0x80)
    t.getV 1 = 0x80 ∧ t.getV 0xF = 0 ∧ u.getV 1 = 0x00 ∧ u.getV 0xF = 1 := by decide

/-- V62: whatever byte is drawn. -/
theorem test_rnd_mask_zero : ∃ t, exec (.rnd 3 0x00) State.reset = .next t ∧ t.getV 3 = 0x00 ∧ t.draws = 1 :=
  ⟨_, rfl, BitVec.and_zero, rfl⟩

/-- V66, V67. -/
theorem test_drw_glyph_0 :
    let t := run1 0xD015 (State.reset.setI 0x050)
    let u := run1 0xD015 t
    (t.FB[0].take 5).toList = [true, true, true, true, false] ∧ (t.FB[1].take 5).toList = [true, false, false, true, false] ∧
    (t.FB[4].take 5).toList = [true, true, true, true, false] ∧ State.pixel t.FB 0 5 = false ∧ t.getV 0xF = 0 ∧
    u.FB = State.blankFB ∧ u.getV 0xF = 1 := by decide

/-- V69. -/
theorem test_drw_clips_or_wraps :
    let wrap := withCfg fun c => { c with drawClipMode := .wrap }
    let s := fun b : State => ((b.pokeByte 0x300 0xFF).setI 0x300).setV 0 0x3C
    let t := run1 0xD011 (s State.reset)
    let u := run1 0xD011 (s wrap)
    State.pixel t.FB 60 0 = true ∧ State.pixel t.FB 63 0 = true ∧ State.pixel t.FB 0 0 = false ∧ t.getV 0xF = 0 ∧
    State.pixel u.FB 63 0 = true ∧ State.pixel u.FB 0 0 = true ∧ State.pixel u.FB 3 0 = true ∧
    State.pixel u.FB 4 0 = false := by decide

/-- V76, V77, V78. -/
theorem test_skp :
    let down := State.reset.setK 0xA true
    (run1 0xE59E (down.setV 5 0x0A)).PC = 0x204 ∧ (run1 0xE59E (State.reset.setV 5 0x0A)).PC = 0x202 ∧
    (run1 0xE59E (down.setV 5 0x1A)).PC = 0x204 := by decide

/-- V79, V80. -/
theorem test_sknp :
    let down := State.reset.setK 0xA true
    (run1 0xE5A1 (State.reset.setV 5 0x0A)).PC = 0x204 ∧ (run1 0xE5A1 (down.setV 5 0x0A)).PC = 0x202 := by decide

/-- V81. -/
theorem test_ld_k :
    let t := run1 0xF20A ((State.reset.setK 3 true).setV 2 0x99)
    let u := after t
    t.st = .awaitingKey 2 ∧ t.getV 2 = 0x99 ∧ u.getV 2 = 0x03 ∧ u.st = .running ∧ u.PC = 0x202 := by decide

/-- V82, V83. -/
theorem test_poll :
    let s := State.reset.setSt (.awaitingKey 0)
    (after ((s.setK 9 true).setK 4 true)).getV 0 = 0x04 ∧
    (after (afterOp (.setKey 6 false) (afterOp (.setKey 6 true) s))).st = .awaitingKey 0 := by decide

/-- V86. -/
theorem test_ld_v_dt : (run1 0xF207 (State.reset.setDT 0x3C)).getV 2 = 0x3C := by decide

theorem test_ld_dt :
    let t := run1 0xF215 (State.reset.setV 2 0x7B)
    t.DT = 0x7B ∧ t.ST = 0 := by decide

/-- V87. -/
theorem test_ld_st :
    let t := run1 0xF218 (State.reset.setV 2 2)
    t.ST = 2 ∧ soundActive t = true ∧ soundActive (afterOp .tickTimers t) = true ∧
    soundActive (afterOp .tickTimers (afterOp .tickTimers t)) = false := by decide

/-- V90. -/
theorem test_ld_i : (run1 0xA300 State.reset).I = 0x0300 := by decide

/-- V91, V92. -/
theorem test_add_i :
    (run1 0xF01E ((State.reset.setI 0x0FFF).setV 0 0x02)).I = 0x1001 ∧
    (run1 0xF01E ((State.reset.setI 0xFFFF).setV 0 0x01)).I = 0x0000 := by decide

/-- V93, V94, V95. -/
theorem test_ld_f :
    (run1 0xF429 (State.reset.setV 4 0x0A)).I = 0x082 ∧ (run1 0xF429 (State.reset.setV 4 0x1A)).I = 0x082 ∧
    (run1 0xF429 (State.reset.setV 4 0x0F)).I = 0x09B := by decide

/-- V98. -/
theorem test_bcd_wraps :
    let t := run1 0xF033 ((State.reset.setI 0xFFF).setV 0 9)
    t.readByte 0xFFF = 0x00 ∧ t.readByte 0x000 = 0x00 ∧ t.readByte 0x001 = 0x09 := by decide

/-- V99. -/
theorem test_bcd_over_font :
    let write := withCfg fun c => { c with fontWritePolicy := .write }
    let t := run1 0xF033 ((State.reset.setI 0x050).setV 0 0xFF)
    let u := run1 0xF033 ((write.setI 0x050).setV 0 0xFF)
    t.readByte 0x050 = 0xF0 ∧ t.readByte 0x052 = 0x90 ∧ u.readByte 0x050 = 2 ∧ u.readByte 0x051 = 5 ∧
    u.readByte 0x052 = 5 := by decide

/-- V100. -/
theorem test_store_at_the_font_edge :
    let t := run1 0xF255 ((((State.reset.setI 0x09E).setV 0 0x11).setV 1 0x22).setV 2 0x33)
    t.readByte 0x09E = 0x80 ∧ t.readByte 0x09F = 0x80 ∧ t.readByte 0x0A0 = 0x33 := by decide

/-- V101. -/
theorem test_store_moves_index :
    let inc := withCfg fun c => { c with saveLoadIncrementsI := true }
    let s := fun b : State => (((b.setI 0x400).setV 0 1).setV 1 2).setV 2 3
    let t := run1 0xF255 (s State.reset)
    t.readByte 0x400 = 1 ∧ t.readByte 0x402 = 3 ∧ t.readByte 0x403 = 0 ∧ t.I = 0x400 ∧
    (run1 0xF255 (s inc)).I = 0x403 := by decide

/-- V105. -/
theorem test_load_wraps :
    let t := run1 0xF165 (((State.reset.setI 0xFFF).pokeByte 0xFFF 0x01).pokeByte 0x000 0x02)
    t.getV 0 = 0x01 ∧ t.getV 1 = 0x02 := by decide

/-- V104, V103. -/
theorem test_load_leaves_registers_above :
    let inc := withCfg fun c => { c with saveLoadIncrementsI := true }
    let t := run1 0xF065 (((State.reset.setI 0x600).pokeByte 0x600 0xAB).setV 1 0x77)
    t.getV 0 = 0xAB ∧ t.getV 1 = 0x77 ∧ t.I = 0x600 ∧ (run1 0xF265 (inc.setI 0x300)).I = 0x303 := by decide

/-- V13, V15. -/
theorem test_stop :
    (afterOp .stop State.reset).st = .halted ⟨.externalStop, none, none⟩ ∧
    (afterOp .stop (run1 0xFFFF State.reset)).st = .halted ⟨.invalidOpcode, some 0xFFFF, some 0x200⟩ := by decide

/-- V88, V89. -/
theorem test_tick :
    let t := afterOp .tickTimers ((State.reset.setDT 4).setST 1)
    t.DT = 3 ∧ t.ST = 0 ∧ (afterOp .tickTimers State.reset).DT = 0 := by decide

/-- V109, V110, V111. -/
theorem test_load_refused :
    refuses (.loadProgram [0x12] (some 0x200)) (afterOp (.loadProgram [] (some 0x200)) State.reset) = true ∧
    refuses (.loadProgram [0x12] (some 0x200)) (after State.reset) = true ∧
    refuses (.loadProgram [0x12] (some 0x100)) State.reset = true ∧ refuses (.loadProgram [] (some 0x1000)) State.reset = true ∧
    refuses (.loadProgram [] (some 0xFFF)) State.reset = false := by decide

/-- V112, and V108 at the last base. -/
theorem test_load_program :
    let t := afterOp (.loadProgram [] (some 0x300)) State.reset
    t.PC = 0x300 ∧ t.M = [] ∧ t.loaded = true ∧
    (afterOp (.loadProgram [0xAA, 0xBB] (some 0xFFF)) State.reset).st = .halted ⟨.programTooLarge, none, some 0xFFF⟩ ∧
    (afterOp (.loadProgram [0xAA] (some 0xFFF)) State.reset).readByte 0xFFF = 0xAA := by decide

/-- LOAD_ADDR is the base of a load that names none. -/
theorem test_load_default_base :
    let t := afterOp (.loadProgram [0xAA] none) (withCfg fun c => { c with loadAddr := 0x600 })
    t.PC = 0x600 ∧ t.readByte 0x600 = 0xAA := by decide

/-- R40: a program too large, loaded after stop() and before any step, sets st; a later stop() leaves that record. -/
theorem test_too_large_load_after_stop :
    let t := afterOp (.loadProgram [0xAA, 0xBB] (some 0xFFF)) (afterOp .stop State.reset)
    t.st = .halted ⟨.programTooLarge, none, some 0xFFF⟩ ∧ t.loaded = true ∧ t.M = [] ∧ (afterOp .stop t).st = t.st := by
  decide

/-- V113. -/
theorem test_reset_restores_the_font :
    let write := withCfg fun c => { c with fontWritePolicy := .write }
    let t := afterOp .reset (run1 0xF033 ((write.setI 0x050).setV 0 0xFF))
    t.readByte 0x050 = 0xF0 ∧ t.cfg = write.cfg ∧ t.getV 0 = 0 := by decide

theorem test_halt_codes :
    [HaltKind.invalidOpcode, .stackOverflow, .stackUnderflow, .programTooLarge, .externalStop].map HaltKind.code =
      [1, 2, 3, 4, 5] := by decide

/-! ### Witnesses: states and operands that meet the hypotheses of the obligations, clause by clause -/

theorem witness_DecodeOfEncodeIsTheInstruction :
    Instr.WellFormed true (.jpV 0xF 0xFFF) = true ∧ Instr.WellFormed false (.seReg 0 0xF 0xF) = true ∧
    Instr.WellFormed true (.sneReg 0xF 0 0) = true ∧ Instr.WellFormed true (.drw 0xF 0xF 0xF) = true := by decide

theorem witness_EncodeOfDecodedInstructionIsTheWord :
    decode true 0xFF65 = .known (.load 0xF) ∧ decode false 0x5FFF = .known (.seReg 0xF 0xF 0xF) := by decide

theorem witness_DecoderAgreesWithOpcodeTable :
    decode true 0x9AB0 = .known (.sneReg 0xA 0xB 0) ∧
    ∃ row ∈ opcodeTable true, row.matchesWord 0x9AB0 = true := by decide

theorem witness_NoWordMatchesTwoRows :
    ∃ row ∈ opcodeTable false, ∃ row' ∈ opcodeTable false,
      row.matchesWord 0x00E0 = true ∧ row'.matchesWord 0x00E0 = true := by decide

theorem witness_UnknownWordsAreThoseListed :
    decode false 0x00E1 = .unknown 0x00E1 ∧ decode false 0x0FFF = .unknown 0x0FFF ∧
    decode false 0x8008 = .unknown 0x8008 ∧ decode false 0x8FFF = .unknown 0x8FFF ∧
    decode false 0xE09F = .unknown 0xE09F ∧ decode false 0xF066 = .unknown 0xF066 ∧
    decode true 0x5001 = .unknown 0x5001 ∧ decode true 0x9FFF = .unknown 0x9FFF := by decide

theorem witness_StepRunsTheDecodedInstruction :
    let s := placed 0x6A42 State.reset
    s.st = .running ∧
      decode s.cfg.strict59 (opcodeOfBytes (s.readByte s.PC.toNat) (s.readByte (s.PC.toNat + 1))) =
        .known (.ldImm 0xA 0x42) := by decide

theorem witness_FetchIsBigEndian :
    let s := placed 0x6005 (State.reset.setPC 0xFFF)
    s.PC = 0xFFF ∧ s.readByte 0xFFF = 0x60 ∧ s.readByte 0x000 = 0x05 := by decide

theorem witness_UnknownWordHaltsOrIsANoOp :
    let strict := placed 0x8008 State.reset
    let lenient := placed 0x8008 (withCfg fun c => { c with unknownOpcodePolicy := .lenient })
    strict.st = .running ∧ decode strict.cfg.strict59 strict.fetch = .unknown 0x8008 ∧
      strict.cfg.unknownOpcodePolicy = .strict ∧ lenient.st = .running ∧
      decode lenient.cfg.strict59 lenient.fetch = .unknown 0x8008 ∧ lenient.cfg.unknownOpcodePolicy = .lenient := by
  decide

/-- A halted state that meets each clause: a step, a tick, and a load that is still admitted, too large or fitting. -/
theorem witness_OnlyResetLeavesHalted :
    let s := State.reset.setSt (.halted ⟨.externalStop, none, none⟩)
    s.st = .halted ⟨.externalStop, none, none⟩ ∧ HostOp.step ≠ .reset ∧ (∃ t, applyOp .step s = .next t) ∧
      (∃ t, applyOp .tickTimers s = .next t) ∧ (∃ t, applyOp (.loadProgram [0x12] (some 0xFFF)) s = .next t) ∧
      (∃ t, applyOp (.loadProgram [0x12, 0x00] (some 0xFFF)) s = .next t) :=
  ⟨rfl, HostOp.noConfusion, ⟨_, rfl⟩, ⟨_, rfl⟩, ⟨_, rfl⟩, ⟨_, rfl⟩⟩

theorem witness_HaltedMachineKeepsItsRecord :
    let s := State.reset.setSt (.halted ⟨.externalStop, none, none⟩)
    s.st = .halted ⟨.externalStop, none, none⟩ ∧ HostOp.step ≠ .reset ∧ (∃ t, applyOp .step s = .next t) ∧
      (∃ t, applyOp .tickTimers s = .next t) ∧ (∃ t, applyOp (.setKey 0xF true) s = .next t) ∧
      (∃ t, applyOp .stop s = .next t) ∧
      ((∃ t, applyOp (.loadProgram [0x12] (some 0xFFF)) s = .next t) ∧
        loadBase s.cfg (some 0xFFF) + [(0x12 : Byte)].length ≤ 4096) ∧
      ((∃ t, applyOp (.loadProgram [0x12, 0x00] (some 0xFFF)) s = .next t) ∧
        4096 < loadBase s.cfg (some 0xFFF) + [(0x12 : Byte), 0x00].length) :=
  ⟨rfl, HostOp.noConfusion, ⟨_, rfl⟩, ⟨_, rfl⟩, ⟨_, rfl⟩, ⟨_, rfl⟩, ⟨⟨_, rfl⟩, by decide⟩, ⟨_, rfl⟩, by decide⟩

theorem witness_StepErrorsHaveThreeCauses :
    (run1 0x0000 State.reset).st = .halted ⟨.invalidOpcode, some 0x0000, some 0x200⟩ ∧
    (run1 0x2FFF (withSP 16)).st = .halted ⟨.stackOverflow, some 0x2FFF, some 0x200⟩ ∧
    (run1 0x00EE (withSP 0)).st = .halted ⟨.stackUnderflow, some 0x00EE, some 0x200⟩ ∧
    (run1 0x2FFF (withSP 15)).st = .running ∧ (run1 0x00EE (withSP 1)).st = .running := by decide

theorem witness_JumpToSelfRunsForever :
    let s := placed 0x1200 State.reset
    s.st = .running ∧ s.PC.toNat = (0x200 : Addr).toNat ∧ decode s.cfg.strict59 s.fetch = .known (.jp 0x200) := by
  decide

theorem witness_DirtyAfterAStepMeansADraw :
    (run1 0x00E0 State.reset).dirty = true ∧ (run1 0xD010 State.reset).dirty = true ∧
    (run1 0x6000 (run1 0x00E0 State.reset)).dirty = false ∧ (after (State.reset.setDirty true)).dirty = false := by
  decide

theorem witness_StepDoesNotTickKeysOrParameters :
    (run1 0xF215 (State.reset.setV 2 5)).DT ≠ (State.reset.setV 2 5).DT ∧
    (run1 0xF218 (State.reset.setV 2 5)).ST ≠ (State.reset.setV 2 5).ST := by decide

/-- Store at the end of the space: the byte below I and the byte above the last one are outside the stored bytes. -/
theorem witness_EveryInstructionKeepsItsFrame :
    (∃ t, exec (.store 1) (State.reset.setI 0xFFF) = .next t) ∧
    ¬ mayWriteByte (State.reset.setI 0xFFF) 0xFFE (.store 1) ∧ ¬ mayWriteByte (State.reset.setI 0xFFF) 0x001 (.store 1) ∧
    mayWriteByte (State.reset.setI 0xFFF) 0x000 (.store 1) ∧ ¬ mayWriteReg Config.standard 1 (.addReg 0 1) := by
  refine ⟨⟨_, rfl⟩, ?_, ?_, ⟨1, by decide⟩, by simp only [mayWriteReg]; decide⟩
  · rintro ⟨k, hk, h⟩
    have h : 0xFFE = (0xFFF + k) % 4096 := h
    have hk : k ≤ 1 := hk
    omega
  · rintro ⟨k, hk, h⟩
    have h : 0x001 = (0xFFF + k) % 4096 := h
    have hk : k ≤ 1 := hk
    omega

theorem witness_OtherInstructionsIgnoreTheLatch :
    (∀ x, Instr.ldK 3 ≠ .skp x) ∧ (∀ x, Instr.ldK 3 ≠ .sknp x) ∧ ∃ t, exec (.ldK 3) State.reset = .next t :=
  ⟨by decide, by decide, _, rfl⟩

theorem witness_JumpsWriteTheirTarget :
    State.reset.cfg.jumpOffsetMode = .legacy ∧
    (withCfg fun c => { c with jumpOffsetMode := .modern }).cfg.jumpOffsetMode = .modern := by decide

theorem witness_PushFillsTheNextEntryOrFails :
    (withSP 0).SP.val < 16 ∧ (withSP 15).SP.val < 16 ∧ (withSP 16).SP.val = 16 := by decide

theorem witness_CallPushesOrOverflows :
    (withSP 0).SP.val < 16 ∧ (withSP 15).SP.val < 16 ∧ (withSP 16).SP.val = 16 := by decide

theorem witness_ReturnPopsOrUnderflows :
    (withSP 1).SP.val = 0 + 1 ∧ (withSP 16).SP.val = 15 + 1 ∧ (withSP 0).SP.val = 0 := by decide

theorem witness_CallThenReturnRestoresPC : (withSP 15).SP.val < 16 := by decide

theorem witness_ComparisonsSkipOneWord :
    State.reset.getV 0 = 0 ∧ State.reset.getV 0 ≠ 1 ∧ State.reset.getV 0 = State.reset.getV 1 ∧
    (State.reset.setV 1 1).getV 0 ≠ (State.reset.setV 1 1).getV 1 := by decide

theorem witness_LogicInstructionsFollowTheQuirk :
    ((Instr.orReg VF 1 = .orReg VF 1 ∧ or = or) ∨ (Instr.orReg VF 1 = .andReg VF 1 ∧ or = and) ∨
      (Instr.orReg VF 1 = .xorReg VF 1 ∧ or = xor)) ∧
    State.reset.cfg.logicQuirkResetVf = false ∧
    (withCfg fun c => { c with logicQuirkResetVf := true }).cfg.logicQuirkResetVf = true :=
  ⟨.inl ⟨rfl, rfl⟩, rfl, rfl⟩

/-- Carry at 255 and 256, borrow at equal operands and at a difference of one. -/
theorem witness_AddAndSubtractWriteResultThenFlag :
    let s := ((State.reset.setV 0 0x7F).setV 1 0x80).setV 2 0x81
    (s.getV 0).toNat + (s.getV 1).toNat = 255 ∧ (s.getV 0).toNat + (s.getV 2).toNat = 256 ∧
    (s.getV 1).toNat ≤ (s.getV 1).toNat ∧ (s.getV 2).toNat = (s.getV 1).toNat + 1 := by decide

theorem witness_ShiftsMoveOneBit :
    let s := (State.reset.setV 1 0x80).setV 2 0x7F
    let l := ((withCfg fun c => { c with shiftMode := .legacy }).setV 1 0x80).setV 2 0x7F
    s.cfg.shiftMode = .modern ∧ 0x80 = (s.getV 1).toNat ∧ l.cfg.shiftMode = .legacy ∧ 0x7F = (l.getV 2).toNat := by
  decide

/-- A sprite at the right edge covers column 63 in both modes and column 0 in wrap mode; the pixel is lit or clear. -/
theorem witness_DrawInvertsCoveredPixels :
    let s := ((State.reset.pokeByte 0x300 0xFF).setI 0x300).setV 0 0x3C
    let w := (((withCfg fun c => { c with drawClipMode := .wrap }).pokeByte 0x300 0xFF).setI 0x300).setV 0 0x3C
    SpriteCovers 0 1 1 s 63 0 ∧ SpriteCovers 0 1 1 w 0 0 ∧ State.pixel s.FB 63 0 = false ∧
      SpriteCovers 0 1 1 (s.setFB (State.togglePixel s.FB 63 0)) 63 0 ∧
      State.pixel (State.togglePixel s.FB 63 0) 63 0 = true := by
  refine ⟨⟨0, 3, ?_⟩, ⟨0, 4, ?_⟩, ?_, ⟨0, 3, ?_⟩, ?_⟩ <;> decide

/-- Row count 0 covers nothing. -/
theorem witness_DrawInvertsCoveredPixels_none : ¬ SpriteCovers 0 1 0 State.reset 0 0 := by
  rintro ⟨r, c, hr, -⟩
  exact absurd hr (Nat.not_lt_zero r)

theorem witness_DrawingTwiceRestoresTheFramebuffer : (0xE : Reg) ≠ VF ∧ (0 : Reg) ≠ VF := by decide

theorem witness_KeySkipsReadTheLatch :
    (0xF : Key).val = ((State.reset.setV 5 0xFF).getV 5).toNat % 16 ∧
    (State.reset.setK 0xF true).K[(0xF : Key)] = true ∧ State.reset.K[(0xF : Key)] = false := by decide

theorem witness_PollTakesTheLowestPressedKey :
    let s := State.reset.setSt (.awaitingKey 0xF)
    s.st = .awaitingKey 0xF ∧ (∀ k : Key, s.K[k] = false) ∧
    ((s.setK 0xF true).K[(0xF : Key)] = true ∧ ∀ j : Key, j < 0xF → (s.setK 0xF true).K[j] = false) ∧
    (((s.setK 0 true).setK 9 true).K[(0 : Key)] = true ∧
      ∀ j : Key, j < 0 → ((s.setK 0 true).setK 9 true).K[j] = false) := by decide

/-- I at the last byte of the font: 0x09F is dropped, 0x0A0 and 0x0A1 are written. -/
theorem witness_BcdStoresThreeDigits :
    let s := State.reset.setI 0x09F
    Memory.wf s.cfg.fontBase s.M = true ∧ (0x09F = (s.I.toNat + 0) % 4096 ∧ FontDropsWrite s.cfg 0x09F) ∧
    (0x0A1 = (s.I.toNat + 2) % 4096 ∧ ¬ FontDropsWrite s.cfg 0x0A1) ∧ 0x0A2 ≠ (s.I.toNat + 2) % 4096 := by
  simp only [FontDropsWrite]; decide

/-- I just below the font: 0x04F is written, 0x050 is dropped; both values of save_load_increments_i. -/
theorem witness_StoreWritesRegistersToMemory :
    let s := State.reset.setI 0x04F
    Memory.wf s.cfg.fontBase s.M = true ∧
    ((0 : Reg) ≤ 1 ∧ 0x04F = (s.I.toNat + (0 : Reg).val) % 4096 ∧ ¬ FontDropsWrite s.cfg 0x04F) ∧
    ((1 : Reg) ≤ 1 ∧ 0x050 = (s.I.toNat + (1 : Reg).val) % 4096 ∧ FontDropsWrite s.cfg 0x050) ∧
    s.cfg.saveLoadIncrementsI = false ∧
    (withCfg fun c => { c with saveLoadIncrementsI := true }).cfg.saveLoadIncrementsI = true := by
  simp only [FontDropsWrite]; decide

theorem witness_LoadReadsRegistersFromMemory :
    ((0xFF65 : Word) &&& 0xF0FF = 0xF065 ∧ (0xF : Reg).val = (0xFF65 : Word).toNat / 256 % 16) ∧
    (0xF : Reg) ≤ 0xF ∧ (0 : Reg) < 1 ∧ State.reset.cfg.saveLoadIncrementsI = false ∧
    (withCfg fun c => { c with saveLoadIncrementsI := true }).cfg.saveLoadIncrementsI = true := by decide

/-- V0 and V1 stored across the end of the space and loaded into another register file. -/
theorem witness_StoreThenLoadRestoresRegisters :
    let s := ((State.reset.setI 0xFFF).setV 0 0xAB).setV 1 0xCD
    Memory.wf s.cfg.fontBase s.M = true ∧ (∀ k, k ≤ (1 : Reg).val → ¬ FontDropsWrite s.cfg ((s.I.toNat + k) % 4096)) ∧
    ∃ t, exec (.store 1) s = .next t ∧ (∀ a, (t.setV 0 0).readByte a = t.readByte a) ∧ (t.setV 0 0).I = s.I := by
  refine ⟨rfl, ?_, _, rfl, fun _ => rfl, rfl⟩
  intro k hk
  have hk : k ≤ 1 := hk
  rintro ⟨-, h1, h2⟩
  have h1 : 0x050 ≤ (0xFFF + k) % 4096 := h1
  have h2 : (0xFFF + k) % 4096 < 0x050 + 80 := h2
  omega

/-- The instruction after Fx55 at 0x200, fetched with PC at 0x202. -/
theorem witness_StoreIsSeenByTheNextFetch :
    let s := (State.reset.setPC 0x202).setI 0x202
    Memory.wf s.cfg.fontBase s.M = true ∧ 1 ≤ (1 : Reg).val ∧ s.I.toNat % 4096 = s.PC.toNat % 4096 ∧
    ¬ FontDropsWrite s.cfg (s.PC.toNat % 4096) ∧ ¬ FontDropsWrite s.cfg ((s.PC.toNat + 1) % 4096) := by
  simp only [FontDropsWrite]; decide

/-- Two states that agree on the bytes at 0xFFF and 0x000 and differ elsewhere. -/
theorem witness_MemReadIsBigEndianModulo4096 :
    let s := State.reset.pokeByte 0x300 0x11
    (∀ k, k < 2 → State.reset.readByte ((0xFFF + k) % 4096) = s.readByte ((0xFFF + k) % 4096)) ∧
    State.reset.readByte 0x300 ≠ s.readByte 0x300 := by decide

/-- A two-byte write whose first byte falls on the last font byte. -/
theorem witness_MemWriteIsBigEndianUnderTheFontPolicy :
    2 ≤ 4096 ∧ Memory.wf State.reset.cfg.fontBase State.reset.M = true ∧
    (0 < 2 ∧ 0x09F = (0x09F + 0) % 4096 ∧ FontDropsWrite State.reset.cfg 0x09F) ∧
    (1 < 2 ∧ 0x0A0 = (0x09F + 1) % 4096 ∧ ¬ FontDropsWrite State.reset.cfg 0x0A0) ∧
    (0x0A1 < 4096 ∧ ∀ k, k < 2 → 0x0A1 ≠ (0x09F + k) % 4096) := by
  simp only [FontDropsWrite]; decide

/-- Writing a byte and writing the reset value back is the empty memory again. -/
theorem witness_EqualReadingsAreEqualMemories :
    let s := (State.reset.pokeByte 0x300 0x11).pokeByte 0x300 0x00
    Memory.wf s.cfg.fontBase s.M = true ∧ Memory.wf (s.setPC 0).cfg.fontBase (s.setPC 0).M = true ∧
    s.cfg.fontBase = (s.setPC 0).cfg.fontBase ∧ ∀ a, a < 4096 → s.readByte a = (s.setPC 0).readByte a :=
  ⟨by decide, by decide, rfl, fun _ _ => rfl⟩

theorem witness_StopHaltsOnce :
    (∀ h, State.reset.st ≠ .halted h) ∧ (∀ h, (State.reset.setSt (.awaitingKey 2)).st ≠ .halted h) ∧
    (State.reset.setSt (.halted ⟨.externalStop, none, none⟩)).st = .halted ⟨.externalStop, none, none⟩ := by
  refine ⟨fun h => ?_, fun h => ?_, rfl⟩ <;> exact ExecState.noConfusion

/-- V107, V108, the bases on either side of the admitted range, a base given or not, in Running and in Halted. -/
theorem witness_LoadProgramCopiesOrHalts :
    (some 0x200 = some 0x200 ∨ (some 0x200 = none ∧ 0x200 = State.reset.cfg.loadAddr.toNat)) ∧
    ((none : Option Nat) = some 0x200 ∨ ((none : Option Nat) = none ∧ 0x200 = State.reset.cfg.loadAddr.toNat)) ∧
    (State.reset.setLoaded true).loaded = true ∧ 0x1FF < 0x200 ∧ 0xFFF < 0x1000 ∧
    (State.reset.loaded = false ∧ 0x200 + (List.replicate 3584 (0 : Byte)).length ≤ 4096) ∧
    (4096 < 0x200 + (List.replicate 3585 (0 : Byte)).length ∧ 4096 < 0xFFF + [0xAA, 0xBB].length) ∧
    ((afterOp .stop State.reset).loaded = false ∧
      (afterOp .stop State.reset).st = .halted ⟨.externalStop, none, none⟩ ∧ State.reset.st = .running) ∧
    (0xFFF + [0xAA].length ≤ 4096 ∧ Memory.wf State.reset.cfg.fontBase State.reset.M = true ∧ 0 < [0xAA].length) := by
  simp only [List.length_replicate]; decide

theorem witness_LoadedProgramIsFetchedFirst :
    (some 0x200 = some 0x200 ∧ 0x200 ≤ 0x200 ∧ 0x200 + (List.replicate 3582 (0 : Byte)).length + 2 ≤ 4096) ∧
    (0xFFE = ({ Config.standard with loadAddr := 0xFFE } : Config).loadAddr.toNat ∧ 0x200 ≤ 0xFFE ∧
      0xFFE + ([] : List Byte).length + 2 ≤ 4096) := by
  simp only [List.length_replicate]; decide

/-- LOAD_ADDR at both ends of its range, the font at its highest place. -/
theorem witness_SteppingWithoutALoadHalts :
    let lo : Config := { Config.standard with loadAddr := 0x200, fontBase := 0x1B0 }
    let hi : Config := { Config.standard with loadAddr := 0xFFE }
    lo.wf = true ∧ lo.unknownOpcodePolicy = .strict ∧ lo.loadAddr.toNat ≠ 0xFFF ∧
    hi.wf = true ∧ hi.unknownOpcodePolicy = .strict ∧ hi.loadAddr.toNat ≠ 0xFFF := by decide

theorem witness_ResetReinitialises :
    (run1 0xFFFF State.reset).cfg.wf = true ∧ (run1 0xFFFF State.reset).cfg.resetZero = true ∧
    { Config.standard with fontBase := 0x1B0 }.wf = true ∧ { Config.standard with fontBase := 0x1B1 }.wf = false ∧
    { Config.standard with loadAddr := 0x1FF }.wf = false := by decide

/-- A state halted by 00EE on an empty stack, with a byte written at 0x300. -/
def halted : State := run1 0x00EE (State.reset.pokeByte 0x300 0x11)

theorem halted_inv : Inv halted := by
  refine ⟨by decide, by decide, ?_, ?_, fun _ _ => rfl⟩
  · intro _; decide
  · intro h hh
    have e : halted.st = .halted ⟨.stackUnderflow, some 0x00EE, some 0x200⟩ := by decide
    rw [e] at hh
    cases hh
    exact ⟨by decide, by decide, by decide, 0x200, rfl, rfl, by decide⟩

/-- A state that waits for a key, with key 7 pressed. -/
def waiting : State := (run1 0xF20A State.reset).setK 7 true

theorem waiting_inv : Inv waiting := by
  refine ⟨by decide, by decide, ?_, ?_, fun _ _ => rfl⟩
  · intro _; decide
  · intro h hh
    have e : waiting.st = .awaitingKey 2 := by decide
    rw [e] at hh
    cases hh

/-- Entering (from reset), and leaving by a key, by stop and by reset. -/
theorem witness_WaitIsEnteredByFx0AAndLeftByAKey :
    (run1 0xF20A State.reset).st = .awaitingKey 2 ∧ Inv waiting ∧ waiting.st = .awaitingKey 2 ∧
    (after waiting).st = .running ∧ (afterOp .stop waiting).st = .halted ⟨.externalStop, none, none⟩ ∧
    (afterOp .reset waiting).st = .running :=
  ⟨by decide, waiting_inv, by decide, by decide, by decide, by decide⟩

theorem witness_InvariantHoldsAtReset : { Config.standard with loadAddr := 0xFFF, fontBase := 0 }.wf = true := by decide

theorem witness_StepKeepsTheInvariant : Inv halted ∧ halted.readByte 0x300 = 0x11 ∧ ∃ t, step halted = .next t :=
  ⟨halted_inv, by decide, _, rfl⟩

theorem witness_RunsKeepTheInvariant :
    Inv halted ∧ ∃ t, runOps [.tickTimers, .reset, .setKey 3 true, .loadProgram [0xF2, 0x0A] (some 0x200), .step, .step, .stop]
      halted = .next t :=
  ⟨halted_inv, _, rfl⟩

end Sys2Proof.Tests
end

section
/-! PROOFS. The rules the frames and the step's invariants are read off: what a return, a call, an Unknown word, a poll, a
stop and a step can do, once each (41_control_flow.md R55, R57; 40_pipeline.md R48, R51, R54; 60_exceptions.md R95). -/

namespace Sys2Proof.Machine

theorem State.onlyChanges_raiseAtInstr (s : State) (k : HaltKind) (op : Word) :
    OnlyChanges [.st] s (s.raiseAtInstr k op) := onlyChanges_raiseHalt s k _ _

/-- Everything a return can do. -/
theorem execRet_cases {s t : State} (h : execRet s = .next t) :
    (s.SP.val = 0 ∧ t = s.raiseAtInstr .stackUnderflow (encode .ret)) ∨
    ∃ p : Fin 16, s.SP.val = p.val + 1 ∧ t = (s.setSP p.castSucc).setPC s.S[p] := by
  rcases Nat.eq_zero_or_eq_succ_pred s.SP.val with h0 | hp
  · rw [execRet_empty h0] at h
    cases h
    exact .inl ⟨h0, rfl⟩
  · rw [execRet_of_pos hp] at h
    cases h
    exact .inr ⟨⟨s.SP.val.pred, by have := s.SP.isLt; omega⟩, hp, rfl⟩

/-- Everything a call can do. -/
theorem execCall_cases {nnn : Addr} {s t : State} (h : execCall nnn s = .next t) :
    (s.SP.val = 16 ∧ t = s.raiseAtInstr .stackOverflow (encode (.call nnn))) ∨
    ∃ j : Fin 16, s.SP.val = j.val ∧ t = (s.setStack j s.PC j.succ).setPC (zext16 nnn) := by
  rcases Nat.lt_or_ge s.SP.val 16 with hlt | hge
  · rw [execCall_of_lt hlt] at h
    cases h
    exact .inr ⟨⟨s.SP.val, hlt⟩, rfl, rfl⟩
  · have hfull : s.SP.val = 16 := by have := s.SP.isLt; omega
    rw [execCall_full hfull] at h
    cases h
    exact .inl ⟨hfull, rfl⟩

/-- Everything an Unknown word can do. -/
theorem execUnknown_cases {op : Word} {s t : State} (h : execUnknown op s = .next t) :
    (s.cfg.unknownOpcodePolicy = .strict ∧ t = s.raiseAtInstr .invalidOpcode op) ∨
    (s.cfg.unknownOpcodePolicy = .lenient ∧ t = s) := by
  unfold execUnknown at h
  split at h
  · cases h
    exact .inl ⟨‹_›, rfl⟩
  · cases h
    exact .inr ⟨‹_›, rfl⟩

theorem onlyChanges_execUnknown {op : Word} {s t : State} (h : execUnknown op s = .next t) : OnlyChanges [.st] s t := by
  obtain ⟨-, rfl⟩ | ⟨-, rfl⟩ := execUnknown_cases h
  · exact s.onlyChanges_raiseAtInstr _ _
  · exact OnlyChanges.refl _ _

/-- A poll leaves the state alone with no key pressed, and ends the wait with some key pressed. -/
theorem poll_cases (r : Reg) (s : State) :
    ((∀ k : Key, s.K[k] = false) ∧ poll r s = s) ∨
    ∃ k : Key, s.K[k] = true ∧ poll r s = (s.setV r (BitVec.ofNat 8 k.val)).setSt .running := by
  cases hk : lowestKey s with
  | none =>
    have hnone := lowestKey_eq_none.mp hk
    exact .inl ⟨hnone, poll_none hnone r⟩
  | some k =>
    obtain ⟨hpressed, hlow⟩ := lowestKey_eq_some.mp hk
    exact .inr ⟨k, hpressed, poll_some hpressed hlow r⟩

/-- A stop ends in Halted. -/
theorem stop_st_ne_awaitingKey (s : State) (r : Reg) : (stop s).st ≠ .awaitingKey r := by
  cases hs : s.st with
  | halted _ => rw [stop, State.raiseUnlessHalted_of_halted hs, hs]; nofun
  | running => rw [stop, State.raiseUnlessHalted_of_not_halted (by simp [hs])]; nofun
  | awaitingKey _ => rw [stop, State.raiseUnlessHalted_of_not_halted (by simp [hs])]; nofun

/-- Everything a step can do, by executor state and by what the fetched word decodes to. -/
theorem step_cases {s t : State} (h : step s = .next t) :
    (∃ r, s.st = .halted r ∧ t = s.beginStep) ∨
    (∃ r, s.st = .awaitingKey r ∧ t = poll r s.beginStep) ∨
    (∃ i, s.st = .running ∧ decode s.cfg.strict59 s.fetch = .known i ∧ exec i s.beginStep.advancePC = .next t) ∨
    (∃ op, s.st = .running ∧ decode s.cfg.strict59 s.fetch = .unknown op ∧
      execUnknown op s.beginStep.advancePC = .next t) := by
  cases hs : s.st with
  | halted r =>
    rw [step_halted hs] at h
    cases h
    exact .inl ⟨r, rfl, rfl⟩
  | awaitingKey r =>
    rw [step_awaitingKey hs] at h
    cases h
    exact .inr (.inl ⟨r, rfl, rfl⟩)
  | running =>
    rw [step_running hs] at h
    cases hd : decode s.cfg.strict59 s.fetch with
    | known i =>
      rw [runOne_known (s := s.beginStep) hd] at h
      exact .inr (.inr (.inl ⟨i, rfl, rfl, h⟩))
    | unknown op =>
      rw [runOne_unknown (s := s.beginStep) hd] at h
      exact .inr (.inr (.inr ⟨op, rfl, rfl, h⟩))

end Sys2Proof.Machine
end

section
/-! PROOFS. The frame of each instruction (10_state.md R8 to R20, "it is written by"; 20_memory.md R35): the parts, the
registers and the bytes of memory it leaves unchanged, and the parts no instruction writes. -/

namespace Sys2Proof.Machine

/-- Two changes in a row stay within the parts of the first and the second. -/
theorem OnlyChanges.append {ps qs : List Part} {s t u : State} (h : OnlyChanges ps s t) (h' : OnlyChanges qs t u) :
    OnlyChanges (ps ++ qs) s u :=
  (h.mono fun _ => List.mem_append_left qs).trans (h'.mono fun _ => List.mem_append_right ps)

theorem onlyChanges_execRet {s t : State} (h : execRet s = .next t) : OnlyChanges [.PC, .stack, .st] s t := by
  obtain ⟨-, rfl⟩ | ⟨p, -, rfl⟩ := execRet_cases h
  · exact (s.onlyChanges_raiseAtInstr _ _).mono (by simp)
  · exact ((s.onlyChanges_setSP _).append (State.onlyChanges_setPC _ _)).mono (by simp)

theorem onlyChanges_execCall {nnn : Addr} {s t : State} (h : execCall nnn s = .next t) :
    OnlyChanges [.PC, .stack, .st] s t := by
  obtain ⟨-, rfl⟩ | ⟨j, -, rfl⟩ := execCall_cases h
  · exact (s.onlyChanges_raiseAtInstr _ _).mono (by simp)
  · exact ((s.onlyChanges_setStack _ _ _).append (State.onlyChanges_setPC _ _)).mono (by simp)

theorem onlyChanges_execCls {s t : State} (h : execCls s = .next t) : OnlyChanges [.FB, .dirty] s t := by
  cases h
  exact (s.onlyChanges_setFB _).append (State.onlyChanges_setDirty _ _)

theorem onlyChanges_execDrw {x y : Reg} {n : Fin 16} {s t : State} (h : execDrw x y n s = .next t) :
    OnlyChanges [.V, .FB, .dirty] s t := by
  cases h
  exact (((s.onlyChanges_setFB _).append (State.onlyChanges_setV _ VF _)).append
    (State.onlyChanges_setDirty _ _)).mono (by simp)

theorem onlyChanges_execRnd {x : Reg} {nn : Byte} {s t : State} (h : execRnd x nn s = .next t) :
    OnlyChanges [.V, .draws] s t := by
  cases h
  exact (s.onlyChanges_setV x _).append (State.onlyChanges_tookDraw _)

theorem onlyChanges_execStore {x : Reg} {s t : State} (h : execStore x s = .next t) :
    OnlyChanges [.memory, .I] s t := by
  cases h
  exact (s.onlyChanges_storeBytes _ _).append (State.onlyChanges_setI _ _)

theorem onlyChanges_execLoad {x : Reg} {s t : State} (h : execLoad x s = .next t) : OnlyChanges [.V, .I] s t := by
  cases h
  exact (onlyChanges_loadRegs s _).append (State.onlyChanges_setI _ _)

/-- Every part outside an instruction's list is as before. -/
theorem onlyChanges_exec {i : Instr} {s t : State} (h : exec i s = .next t) : OnlyChanges (mayChange i) s t := by
  cases i with
  | cls => exact onlyChanges_execCls h
  | ret => exact onlyChanges_execRet h
  | call _ => exact onlyChanges_execCall h
  | jp _ | jpV _ _ => cases h; exact s.onlyChanges_setPC _
  | seImm _ _ | sneImm _ _ | seReg _ _ _ | sneReg _ _ _ | skp _ | sknp _ => cases h; exact State.onlyChanges_skipIf _ s
  | ldImm _ _ | addImm _ _ | ldReg _ _ | ldVDt _ => cases h; exact s.onlyChanges_setV _ _
  | orReg _ _ | andReg _ _ | xorReg _ _ => cases h; exact s.onlyChanges_setLogicResult _ _
  | addReg _ _ | sub _ _ | subn _ _ | shr _ _ | shl _ _ => cases h; exact s.onlyChanges_setResultFlag _ _ _
  | rnd _ _ => exact onlyChanges_execRnd h
  | drw _ _ _ => exact onlyChanges_execDrw h
  | ldK _ => cases h; exact s.onlyChanges_setSt _
  | ldDt _ => cases h; exact s.onlyChanges_setDT _
  | ldSt _ => cases h; exact s.onlyChanges_setST _
  | ldI _ | addI _ | ldF _ => cases h; exact s.onlyChanges_setI _
  | bcd _ => cases h; exact s.onlyChanges_storeBytes _ _
  | store _ => exact onlyChanges_execStore h
  | load _ => exact onlyChanges_execLoad h

/-- Every register an instruction has no reason to write is as before. -/
theorem getV_exec_of_not_mayWriteReg {i : Instr} {s t : State} (h : exec i s = .next t) {r : Reg}
    (hr : ¬ mayWriteReg s.cfg r i) : t.getV r = s.getV r := by
  cases i with
  | cls | ret | jp _ | call _ | seImm _ _ | sneImm _ _ | seReg _ _ _ | sneReg _ _ _ | ldI _ | jpV _ _ | skp _ | sknp _
  | ldK _ | ldDt _ | ldSt _ | addI _ | ldF _ | bcd _ | store _ => exact onlyChanges_exec h .V (by simp [mayChange]) r
  | ldImm _ _ | addImm _ _ | ldReg _ _ | ldVDt _ => cases h; exact s.getV_setV_ne _ hr
  | rnd _ _ => cases h; exact s.getV_setV_ne _ hr
  | drw _ _ _ => cases h; exact State.getV_setV_ne _ _ hr
  | orReg _ _ | andReg _ _ | xorReg _ _ =>
    cases h
    obtain ⟨hx, hVF⟩ := not_or.mp hr
    rw [State.getV_setLogicResult, if_neg hVF, if_neg hx]
  | addReg _ _ | sub _ _ | subn _ _ | shr _ _ | shl _ _ =>
    cases h
    obtain ⟨hx, hVF⟩ := not_or.mp hr
    rw [State.getV_setResultFlag, if_neg hVF, if_neg hx]
  | load x =>
    cases h
    have hnot : r ∉ State.regsUpTo x := fun hm => hr ((State.mem_regsUpTo x r).mp hm)
    rw [State.getV_setI, getV_loadRegs, if_neg hnot]

/-- Every byte of memory an instruction does not store to is as before. -/
theorem readByte_exec_of_not_mayWriteByte {i : Instr} {s t : State} (h : exec i s = .next t) {a : Nat} (ha : a < 4096)
    (hb : ¬ mayWriteByte s a i) : t.readByte a = s.readByte a := by
  have hmod : a % 4096 = a := Nat.mod_eq_of_lt ha
  cases i with
  | bcd _ =>
    cases h
    refine s.readByte_storeBytes_out _ _ fun k hk e => hb ⟨k, ?_, hmod ▸ e⟩
    simpa [bcdDigits] using hk
  | store x =>
    cases h
    refine s.readByte_storeBytes_out _ _ fun k hk e => hb ⟨k, ?_, hmod ▸ e⟩
    rw [List.length_map, State.length_regsUpTo] at hk
    omega
  | cls | ret | jp _ | call _ | seImm _ _ | sneImm _ _ | seReg _ _ _ | ldImm _ _ | addImm _ _ | ldReg _ _ | orReg _ _
  | andReg _ _ | xorReg _ _ | addReg _ _ | sub _ _ | shr _ _ | subn _ _ | shl _ _ | sneReg _ _ _ | ldI _ | jpV _ _
  | rnd _ _ | drw _ _ _ | skp _ | sknp _ | ldVDt _ | ldK _ | ldDt _ | ldSt _ | addI _ | ldF _ | load _ =>
    exact onlyChanges_exec h .memory (by simp [mayChange]) a

/-! ### Which instructions write a part -/

theorem dirty_mem_mayChange {i : Instr} : .dirty ∈ mayChange i ↔ i = .cls ∨ ∃ x y n, i = .drw x y n := by
  cases i <;> simp [mayChange]

theorem DT_mem_mayChange {i : Instr} : .DT ∈ mayChange i ↔ ∃ x, i = .ldDt x := by cases i <;> simp [mayChange]

theorem ST_mem_mayChange {i : Instr} : .ST ∈ mayChange i ↔ ∃ x, i = .ldSt x := by cases i <;> simp [mayChange]

theorem K_notMem_mayChange (i : Instr) : .K ∉ mayChange i := by cases i <;> simp [mayChange]

theorem cfg_notMem_mayChange (i : Instr) : .cfg ∉ mayChange i := by cases i <;> simp [mayChange]

/-- What an instruction can do to the executor state: nothing, the halt of a return or call that the stack forbids,
or the wait of Fx0A. -/
theorem exec_st_cases {i : Instr} {s t : State} (h : exec i s = .next t) :
    t.st = s.st ∨
    (i = .ret ∧ s.SP.val = 0 ∧ t.st = .halted ⟨.stackUnderflow, some (encode .ret), some s.instrAddr⟩) ∨
    (∃ nnn, i = .call nnn ∧ s.SP.val = 16 ∧
      t.st = .halted ⟨.stackOverflow, some (encode (.call nnn)), some s.instrAddr⟩) ∨
    ∃ x, i = .ldK x ∧ t.st = .awaitingKey x := by
  by_cases hst : .st ∈ mayChange i
  · cases i with
    | ret =>
      obtain ⟨h0, rfl⟩ | ⟨p, -, rfl⟩ := execRet_cases h
      · exact .inr (.inl ⟨rfl, h0, rfl⟩)
      · exact .inl rfl
    | call nnn =>
      obtain ⟨h16, rfl⟩ | ⟨j, -, rfl⟩ := execCall_cases h
      · exact .inr (.inr (.inl ⟨nnn, rfl, h16, rfl⟩))
      · exact .inl rfl
    | ldK x => cases h; exact .inr (.inr (.inr ⟨x, rfl, rfl⟩))
    | _ => simp [mayChange] at hst
  · exact .inl (onlyChanges_exec h .st hst)

end Sys2Proof.Machine

namespace Sys2Proof.Proofs

open Sys2Proof.Machine

/-- Settles O17: the three frames, each by cases on the instruction. -/
theorem everyInstructionKeepsItsFrame : Obligations.EveryInstructionKeepsItsFrame := by
  intro i s t h
  exact ⟨onlyChanges_exec h, fun _ hr => getV_exec_of_not_mayWriteReg h hr,
    fun _ ha hb => readByte_exec_of_not_mayWriteByte h ha hb⟩

end Sys2Proof.Proofs
end

section
/-! PROOFS. What every step keeps (10_state.md R15, R17, R19), read off the frames. -/

namespace Sys2Proof.Machine

namespace State

theorem onlyChanges_advancePC (s : State) : OnlyChanges [.PC] s s.advancePC := s.onlyChanges_setPC _

/-- Up to the execution of the fetched instruction a step writes its own flags and PC only. -/
theorem onlyChanges_beginStep_advancePC (s : State) : OnlyChanges [.dirty, .loaded, .PC] s s.beginStep.advancePC :=
  s.onlyChanges_beginStep.append s.beginStep.onlyChanges_advancePC

end State

/-- A part outside the step's own flags, PC, registers and executor state changes only by a fetched instruction that
may change it. -/
theorem samePart_step {s t : State} (h : step s = .next t) {p : Part}
    (hp : p ∉ [Part.dirty, .loaded, .PC, .V, .st])
    (hi : ∀ i, s.st = .running → decode s.cfg.strict59 s.fetch = .known i → p ∉ mayChange i) : SamePart s t p := by
  simp only [List.mem_cons, List.not_mem_nil, or_false, not_or] at hp
  obtain ⟨hdirty, hloaded, hPC, hV, hst⟩ := hp
  have hbegin : SamePart s s.beginStep p := s.onlyChanges_beginStep p (by simp [hdirty, hloaded])
  have hadvance : SamePart s s.beginStep.advancePC p :=
    s.onlyChanges_beginStep_advancePC p (by simp [hdirty, hloaded, hPC])
  obtain ⟨r, -, rfl⟩ | ⟨r, -, rfl⟩ | ⟨i, hs, hd, he⟩ | ⟨op, -, -, he⟩ := step_cases h
  · exact hbegin
  · exact hbegin.trans (onlyChanges_poll r _ p (by simp [hV, hst]))
  · exact hadvance.trans (onlyChanges_exec he p (hi i hs hd))
  · exact hadvance.trans (onlyChanges_execUnknown he p (by simp [hst]))

/-- An instruction that may write dirty sets it (00E0 and Dxyn), and any other leaves it. -/
theorem exec_dirty_of_clear {i : Instr} {s t : State} (hs : s.dirty = false) (h : exec i s = .next t) :
    t.dirty = true ↔ i = .cls ∨ ∃ x y n, i = .drw x y n := by
  rw [← dirty_mem_mayChange]
  constructor
  · intro ht
    by_contra hi
    rw [onlyChanges_exec h .dirty hi, hs] at ht
    cases ht
  · intro hi
    obtain rfl | ⟨x, y, n, rfl⟩ := dirty_mem_mayChange.mp hi
    · cases h; rfl
    · cases h; rfl

end Sys2Proof.Machine

namespace Sys2Proof.Proofs

open Sys2Proof.Machine

/-- Settles O15: dirty is false when the fetched instruction begins, so it is true afterwards exactly when that
instruction sets it. -/
theorem dirtyAfterAStepMeansADraw : Obligations.DirtyAfterAStepMeansADraw := by
  intro s t h
  obtain ⟨r, hs, rfl⟩ | ⟨r, hs, rfl⟩ | ⟨i, hs, hd, he⟩ | ⟨op, hs, hd, he⟩ := step_cases h
  · simp [hs]
  · have hclear : (poll r s.beginStep).dirty = false := onlyChanges_poll r _ .dirty (by simp)
    simp [hs, hclear]
  · simp [hs, hd, exec_dirty_of_clear rfl he]
  · have hclear : t.dirty = false := onlyChanges_execUnknown he .dirty (by simp)
    simp [hd, hclear]

/-- Settles O16: no instruction may change the keys or the parameters, and only Fx15 and Fx18 may change a timer. -/
theorem stepDoesNotTickKeysOrParameters : Obligations.StepDoesNotTickKeysOrParameters := by
  intro s t h
  refine ⟨samePart_step h (p := .cfg) (by simp) fun i _ _ => cfg_notMem_mayChange i,
    samePart_step h (p := .K) (by simp) fun i _ _ => K_notMem_mayChange i, fun hDT => ?_, fun hST => ?_⟩
  · by_contra hno
    refine hDT (samePart_step h (p := .DT) (by simp) fun i hs hd hm => hno ⟨hs, ?_⟩)
    obtain ⟨x, rfl⟩ := DT_mem_mayChange.mp hm
    exact ⟨x, hd⟩
  · by_contra hno
    refine hST (samePart_step h (p := .ST) (by simp) fun i hs hd hm => hno ⟨hs, ?_⟩)
    obtain ⟨x, rfl⟩ := ST_mem_mayChange.mp hm
    exact ⟨x, hd⟩

end Sys2Proof.Proofs
end

section
/-! PROOFS. Only Ex9E and ExA1 read the input latch (10_state.md R17): exec commutes with replacing it. -/

namespace Sys2Proof.Machine

/-- The state with its input latch replaced. -/
def State.withLatch (s : State) (K' : Vector Bool 16) : State := { s with K := K' }

namespace State

variable (s : State) (K' : Vector Bool 16)

theorem skipIf_withLatch (c : Bool) : (s.withLatch K').skipIf c = (s.skipIf c).withLatch K' := by
  cases c <;> rfl

theorem setLogicResult_withLatch (x : Reg) (v : Byte) :
    (s.withLatch K').setLogicResult x v = (s.setLogicResult x v).withLatch K' :=
  (apply_ite (withLatch · K') (s.cfg.logicQuirkResetVf = true) ((s.setV x v).setV VF 0) (s.setV x v)).symm

theorem writeByte_withLatch (a : Nat) (b : Byte) :
    (s.withLatch K').writeByte a b = (s.writeByte a b).withLatch K' :=
  (apply_ite (withLatch · K') (fontProtected s.cfg (a % Memory.size) = true) s (s.pokeByte a b)).symm

theorem storeBytes_withLatch (a : Nat) (bs : List Byte) :
    (s.withLatch K').storeBytes a bs = (s.storeBytes a bs).withLatch K' := by
  induction bs generalizing s a with
  | nil => rfl
  | cons b rest ih => rw [storeBytes, writeByte_withLatch, ih, storeBytes]

end State

theorem loadRegs_withLatch (s : State) (K' : Vector Bool 16) (is : List Reg) :
    loadRegs (s.withLatch K') is = (loadRegs s is).withLatch K' := by
  induction is generalizing s with
  | nil => rfl
  | cons i rest ih => exact ih (s.setV i _)

theorem execRet_withLatch {s t : State} (K' : Vector Bool 16) (h : execRet s = .next t) :
    execRet (s.withLatch K') = .next (t.withLatch K') := by
  obtain ⟨h0, rfl⟩ | ⟨p, hp, rfl⟩ := execRet_cases h
  · exact execRet_empty (s := s.withLatch K') h0
  · exact execRet_of_pos (s := s.withLatch K') hp

theorem execCall_withLatch {nnn : Addr} {s t : State} (K' : Vector Bool 16) (h : execCall nnn s = .next t) :
    execCall nnn (s.withLatch K') = .next (t.withLatch K') := by
  obtain ⟨h16, rfl⟩ | ⟨⟨j, hlt⟩, rfl, rfl⟩ := execCall_cases h
  · exact execCall_full (s := s.withLatch K') h16 nnn
  · exact execCall_of_lt (s := s.withLatch K') hlt nnn

/-- Replacing the latch commutes with every instruction but Ex9E and ExA1. -/
theorem exec_withLatch {i : Instr} {s t : State} (K' : Vector Bool 16) (hskp : ∀ x, i ≠ .skp x)
    (hsknp : ∀ x, i ≠ .sknp x) (h : exec i s = .next t) : exec i (s.withLatch K') = .next (t.withLatch K') := by
  cases i with
  | skp x => exact absurd rfl (hskp x)
  | sknp x => exact absurd rfl (hsknp x)
  | ret => exact execRet_withLatch K' h
  | call _ => exact execCall_withLatch K' h
  | seImm _ _ | sneImm _ _ | seReg _ _ _ | sneReg _ _ _ =>
    cases h; exact congrArg _ (s.skipIf_withLatch K' _)
  | orReg _ _ | andReg _ _ | xorReg _ _ => cases h; exact congrArg _ (s.setLogicResult_withLatch K' _ _)
  | bcd _ => cases h; exact congrArg _ (s.storeBytes_withLatch K' _ _)
  | store _ => cases h; exact congrArg (fun u : State => Host.Outcome.next (u.setI _)) (s.storeBytes_withLatch K' _ _)
  | load _ => cases h; exact congrArg (fun u : State => Host.Outcome.next (u.setI _)) (loadRegs_withLatch s K' _)
  | cls | jp _ | ldImm _ _ | addImm _ _ | ldReg _ _ | addReg _ _ | sub _ _ | shr _ _ | subn _ _ | shl _ _ | ldI _
  | jpV _ _ | rnd _ _ | drw _ _ _ | ldVDt _ | ldK _ | ldDt _ | ldSt _ | addI _ | ldF _ => cases h; rfl

end Sys2Proof.Machine

namespace Sys2Proof.Proofs

open Sys2Proof.Machine

/-- Settles O18: replacing the latch commutes with every other instruction. -/
theorem otherInstructionsIgnoreTheLatch : Obligations.OtherInstructionsIgnoreTheLatch :=
  fun _ _ _ K' hskp hsknp h => exec_withLatch K' hskp hsknp h

end Sys2Proof.Proofs
end

section
/-! PROOFS. The wait for a key (10_state.md R20), the call stack's push (R13) and the host's view of keys and sound
(R16, R17). -/

namespace Sys2Proof.Machine

/-- A step waits for `r` afterwards only if it did before or it executed Fx0A. -/
theorem step_enters_wait {s t : State} (h : step s = .next t) {r : Reg} (ht : t.st = .awaitingKey r) :
    s.st = .awaitingKey r ∨ (s.st = .running ∧ decode s.cfg.strict59 s.fetch = .known (.ldK r)) := by
  obtain ⟨_, -, rfl⟩ | ⟨r', hs, rfl⟩ | ⟨i, hs, hd, he⟩ | ⟨op, hs, -, he⟩ := step_cases h
  · exact .inl ht
  · obtain ⟨-, hpoll⟩ | ⟨k, -, hpoll⟩ := poll_cases r' s.beginStep
    · rw [hpoll] at ht
      exact .inl ht
    · rw [hpoll] at ht
      cases ht
  · have hbefore : s.beginStep.advancePC.st = .running := hs
    obtain hst | ⟨-, -, hst⟩ | ⟨_, -, -, hst⟩ | ⟨x, rfl, hst⟩ := exec_st_cases he
    · rw [hst, hbefore] at ht
      cases ht
    · rw [hst] at ht
      cases ht
    · rw [hst] at ht
      cases ht
    · rw [hst] at ht
      cases ht
      exact .inr ⟨hs, hd⟩
  · obtain ⟨-, rfl⟩ | ⟨-, rfl⟩ := execUnknown_cases he
    · cases ht
    · exact .inl ht

/-- A step ends a wait only with some key pressed. -/
theorem step_leaves_wait {s t : State} (h : step s = .next t) {r : Reg} (hs : s.st = .awaitingKey r)
    (ht : t.st ≠ .awaitingKey r) : ∃ k : Key, s.K[k] = true := by
  rw [step_awaitingKey hs] at h
  cases h
  obtain ⟨-, hpoll⟩ | ⟨k, hk, -⟩ := poll_cases r s.beginStep
  · rw [hpoll] at ht
    exact absurd hs ht
  · exact ⟨k, hk⟩

/-- A load leaves the executor state or halts. -/
theorem loadProgram_st_cases {s t : State} {bytes : List Byte} {base : Nat} (h : loadProgram bytes base s = .next t) :
    t.st = s.st ∨ ∃ r, t.st = .halted r := by
  obtain ⟨-, ⟨-, rfl⟩ | ⟨-, rfl⟩⟩ := loadProgram_cases h
  · exact .inr ⟨_, rfl⟩
  · exact .inl ((s.setLoaded true).onlyChanges_pokeBytes base bytes .st (by simp))

/-- A state that meets the invariant and waits for a key admits no load. -/
theorem Inv.loadProgram_ne_next {s : State} (hinv : Inv s) {r : Reg} (hs : s.st = .awaitingKey r) (t : State)
    (bytes : List Byte) (base : Nat) : loadProgram bytes base s ≠ .next t := by
  intro h
  obtain ⟨⟨hfresh, -⟩, -⟩ := loadProgram_cases h
  rw [hinv.wait r hs] at hfresh
  cases hfresh

theorem State.getElem_setK (s : State) (k j : Key) (b : Bool) :
    (s.setK k b).K[j] = if j = k then b else s.K[j] := by
  simp only [setK_K, Fin.getElem_fin, Vector.getElem_set, Fin.ext_iff, eq_comm]

end Sys2Proof.Machine

namespace Sys2Proof.Proofs

open Sys2Proof.Machine

/-- Settles O37, by cases on the host operation; the invariant shuts out a load while waiting. -/
theorem waitIsEnteredByFx0AAndLeftByAKey : Obligations.WaitIsEnteredByFx0AAndLeftByAKey := by
  intro op s t hinv h
  cases op with
  | step =>
    refine ⟨fun r ht => ?_, fun r hs ht => .inr (.inr ⟨rfl, step_leaves_wait h hs ht⟩)⟩
    exact (step_enters_wait h ht).imp_right fun hldK => ⟨rfl, hldK⟩
  | tickTimers | setKey _ _ =>
    cases h
    exact ⟨fun r ht => .inl ht, fun r hs ht => absurd hs ht⟩
  | loadProgram bytes base =>
    refine ⟨fun r ht => ?_, fun r hs _ => absurd h (hinv.loadProgram_ne_next hs t bytes _)⟩
    obtain hst | ⟨_, hst⟩ := loadProgram_st_cases h
    · exact .inl (hst ▸ ht)
    · rw [hst] at ht
      cases ht
  | reset =>
    cases h
    exact ⟨fun r ht => (nomatch ht), fun _ _ _ => .inl rfl⟩
  | stop =>
    cases h
    exact ⟨fun r ht => absurd ht (stop_st_ne_awaitingKey s r), fun _ _ _ => .inr (.inl rfl)⟩

/-- Settles O20: push by the number of entries in use, and 2nnn's halt on a full stack. -/
theorem pushFillsTheNextEntryOrFails : Obligations.PushFillsTheNextEntryOrFails := by
  intro s a
  refine ⟨fun hfull => ⟨State.push_full hfull a, fun nnn => ?_⟩, fun hlt => ?_⟩
  · exact ⟨_, _, execCall_full hfull nnn, rfl, rfl, s.onlyChanges_raiseAtInstr _ _⟩
  · refine ⟨_, State.push_of_lt hlt a, by simp, rfl, fun j hj => ?_, s.onlyChanges_setStack _ _ _⟩
    simp [hj.symm]

/-- Settles O49: sound_active is that comparison. -/
theorem soundIsActiveWhileSTIsPositive : Obligations.SoundIsActiveWhileSTIsPositive :=
  fun _ => decide_eq_true_iff

/-- Settles O50: the latch after a write is the latch with that key replaced. -/
theorem setKeyWritesOneKey : Obligations.SetKeyWritesOneKey := by
  intro s k p q
  refine ⟨s.setK k p, (s.setK k p).setK k q, rfl, rfl, by rw [State.getElem_setK, if_pos rfl],
    by rw [State.getElem_setK, if_pos rfl], fun j hj => ?_,
    (s.onlyChanges_setK k p).trans (State.onlyChanges_setK _ k q)⟩
  rw [State.getElem_setK, if_neg hj, State.getElem_setK, if_neg hj]

end Sys2Proof.Proofs
end

section
/-! PROOFS. Memory (20_memory.md): what a multi-byte read is, what a run of stores leaves under the font policy, that the
canonical form is determined by what it reads as, and where a program load puts its bytes (R24, R29 to R32, R39, R40). -/

namespace Sys2Proof.Machine

namespace Memory

variable {fb : Addr}

/-- Below a canonical list every byte reads as its reset contents. -/
theorem readCell_of_lt {lo a : Nat} {m : Memory} (hm : wfFrom fb lo m = true) (h : a < lo) :
    readCell fb m a = resetContents fb a := by
  rw [readCell, cellAt_of_lt hm h, Option.getD_none]

theorem readCell_cons_self (k : Nat) (b : Byte) (m : Memory) : readCell fb ((k, b) :: m) k = b := by
  rw [readCell, cellAt, if_pos rfl, Option.getD_some]

theorem readCell_cons_ne {k a : Nat} (h : a ≠ k) (b : Byte) (m : Memory) :
    readCell fb ((k, b) :: m) a = readCell fb m a := by
  rw [readCell, cellAt, if_neg h, readCell]

/-- A list canonical from `lo'` on that reads at `k` as a canonical list does which lists `k` cannot begin above `k`: a
listed byte is not the reset contents. -/
theorem le_of_readCell_eq_cons {lo lo' k : Nat} {b : Byte} {rest m : Memory}
    (hcons : wfFrom fb lo ((k, b) :: rest) = true) (hm : wfFrom fb lo' m = true)
    (h : readCell fb ((k, b) :: rest) k = readCell fb m k) : lo' ≤ k := by
  obtain ⟨-, -, hb, -⟩ := wfFrom_cons.mp hcons
  by_contra hlt
  rw [readCell_cons_self, readCell_of_lt hm (Nat.lt_of_not_le hlt)] at h
  exact hb h

/-- Two canonical lists that read the same are the same list. -/
theorem eq_of_readCell_eq {lo lo' : Nat} {m m' : Memory} (hm : wfFrom fb lo m = true) (hm' : wfFrom fb lo' m' = true)
    (h : ∀ a, a < size → readCell fb m a = readCell fb m' a) : m = m' := by
  induction m generalizing lo lo' m' with
  | nil =>
    cases m' with
    | nil => rfl
    | cons c' rest' =>
      obtain ⟨k', b'⟩ := c'
      obtain ⟨-, hk', -, -⟩ := wfFrom_cons.mp hm'
      have hle : k' + 1 ≤ k' := le_of_readCell_eq_cons hm' (m := []) rfl (h k' hk').symm
      omega
  | cons c rest ih =>
    obtain ⟨k, b⟩ := c
    obtain ⟨-, hk, -, hrest⟩ := wfFrom_cons.mp hm
    cases m' with
    | nil =>
      have hle : k + 1 ≤ k := le_of_readCell_eq_cons hm (m := []) rfl (h k hk)
      omega
    | cons c' rest' =>
      obtain ⟨k', b'⟩ := c'
      obtain ⟨-, hk', hb', hrest'⟩ := wfFrom_cons.mp hm'
      have hle : k ≤ k' :=
        le_of_readCell_eq_cons hm' (wfFrom_cons.mpr ⟨le_rfl, (wfFrom_cons.mp hm).2⟩) (h k' hk').symm
      have hge : k' ≤ k :=
        le_of_readCell_eq_cons hm (wfFrom_cons.mpr ⟨le_rfl, hk', hb', hrest'⟩) (h k hk)
      obtain rfl : k = k' := le_antisymm hle hge
      have hb : b = b' := by simpa only [readCell_cons_self] using h k hk
      have htail : rest = rest' := by
        refine ih hrest hrest' fun a ha => ?_
        rcases Nat.lt_or_ge k a with hlt | hak
        · simpa only [readCell_cons_ne hlt.ne'] using h a ha
        · rw [readCell_of_lt hrest (Nat.lt_succ_of_le hak), readCell_of_lt hrest' (Nat.lt_succ_of_le hak)]
      rw [hb, htail]

end Memory

namespace State

/-! ### Reading more than one byte -/

theorem toNat_memRead_succ (s : State) (a n : Nat) :
    (s.memRead a (n + 1)).toNat = (s.memRead a n).toNat * 256 + (s.readByte (a + n)).toNat :=
  toNat_append_eq (s.memRead a n) (s.readByte (a + n))

/-- A read depends on the bytes read only. -/
theorem memRead_congr {s t : State} {a n : Nat} (h : ∀ k, k < n → t.readByte (a + k) = s.readByte (a + k)) :
    t.memRead a n = s.memRead a n := by
  induction n with
  | zero => rfl
  | succ n ih => rw [memRead_succ, memRead_succ, ih fun k hk => h k (Nat.lt_succ_of_lt hk), h n (Nat.lt_succ_self n)]

theorem fetch_eq_opcodeOfBytes (s : State) :
    s.fetch = opcodeOfBytes (s.readByte s.PC.toNat) (s.readByte (s.PC.toNat + 1)) :=
  BitVec.eq_of_toNat_eq (by rw [toNat_fetch, toNat_opcodeOfBytes])

/-! ### A run of stores under the font policy -/

theorem fontProtected_iff (c : Config) (a : Nat) : fontProtected c a = true ↔ FontDropsWrite c a := by
  simp [fontProtected, FontDropsWrite, Memory.inFont]

section

variable {s : State} {a a' k : Nat} {bs : List Byte}

/-- Where the font policy drops the write, the old byte stands. -/
theorem readByte_storeBytes_of_dropped (hw : s.MemWf) (hl : bs.length ≤ 4096) (hk : k < bs.length)
    (ha : a' % 4096 = (a + k) % 4096) (hd : FontDropsWrite s.cfg ((a + k) % 4096)) :
    (s.storeBytes a bs).readByte a' = s.readByte a' := by
  rw [readByte_storeBytes_in hw a bs hl hk ha, if_pos ((fontProtected_iff _ _).mpr hd)]

/-- Elsewhere the byte stored stands. -/
theorem readByte_storeBytes_of_not_dropped (hw : s.MemWf) (hl : bs.length ≤ 4096) (hk : k < bs.length)
    (ha : a' % 4096 = (a + k) % 4096) (hd : ¬ FontDropsWrite s.cfg ((a + k) % 4096)) :
    (s.storeBytes a bs).readByte a' = bs[k] := by
  rw [readByte_storeBytes_in hw a bs hl hk ha, if_neg (mt (fontProtected_iff _ _).mp hd)]

end

/-- Fx55 leaves V[r] at I + r, the font policy allowing (45_timers_index_memory.md R89). -/
theorem readByte_storeBytes_regsUpTo {s : State} (hw : s.MemWf) {x r : Reg} (hr : r ≤ x) {a a' : Nat}
    (ha : a' % 4096 = (a + r.val) % 4096) (hd : ¬ FontDropsWrite s.cfg ((a + r.val) % 4096)) :
    (s.storeBytes a ((regsUpTo x).map s.getV)).readByte a' = s.getV r := by
  have hl : ((regsUpTo x).map s.getV).length = x.val + 1 := by rw [List.length_map, length_regsUpTo]
  have hk : r.val < ((regsUpTo x).map s.getV).length := hl ▸ Nat.lt_succ_of_le hr
  rw [readByte_storeBytes_of_not_dropped hw (by omega) hk ha hd, getElem_map_regsUpTo s x r hk]

/-! ### `memWrite` -/

theorem toNat_byteOf (n : Nat) (v : BitVec (8 * n)) (k : Nat) :
    (byteOf n v k).toNat = v.toNat / 2 ^ (8 * (n - 1 - k)) % 256 := by
  rw [byteOf, BitVec.extractLsb'_toNat, Nat.shiftRight_eq_div_pow]

theorem length_map_byteOf (n : Nat) (v : BitVec (8 * n)) : ((List.range n).map (byteOf n v)).length = n := by
  rw [List.length_map, List.length_range]

end State

/-! ### Program load -/

theorem loadBase_eq {c : Config} {given : Option Nat} {base : Nat}
    (h : given = some base ∨ (given = none ∧ base = c.loadAddr.toNat)) : loadBase c given = base := by
  obtain rfl | ⟨rfl, rfl⟩ := h <;> rfl

theorem applyOp_loadProgram {s : State} {given : Option Nat} {base : Nat}
    (h : given = some base ∨ (given = none ∧ base = s.cfg.loadAddr.toNat)) (bytes : List Byte) :
    applyOp (.loadProgram bytes given) s = loadProgram bytes base s :=
  congrArg (loadProgram bytes · s) (loadBase_eq h)

/-- A load that is too large writes st and loaded. -/
theorem onlyChanges_setLoaded_raiseHalt (s : State) (kind : HaltKind) (op a : Option Word) :
    OnlyChanges [.st, .loaded] s ((s.setLoaded true).raiseHalt kind op a) :=
  ((s.onlyChanges_setLoaded true).append (State.onlyChanges_raiseHalt _ kind op a)).mono (by simp)

/-- A load that fits writes memory, PC and loaded. -/
theorem onlyChanges_setLoaded_pokeBytes_setPC (s : State) (base : Nat) (bytes : List Byte) (pc : Word) :
    OnlyChanges [.memory, .PC, .loaded] s (((s.setLoaded true).pokeBytes base bytes).setPC pc) :=
  (((s.onlyChanges_setLoaded true).append (State.onlyChanges_pokeBytes _ base bytes)).append
    (State.onlyChanges_setPC _ pc)).mono (by simp)

/-- A load that fits leaves loaded as the load set it. -/
theorem loaded_setLoaded_pokeBytes_setPC (s : State) (base : Nat) (bytes : List Byte) (pc : Word) :
    (((s.setLoaded true).pokeBytes base bytes).setPC pc).loaded = true :=
  State.onlyChanges_pokeBytes (s.setLoaded true) base bytes .loaded (by simp)

end Sys2Proof.Machine

namespace Sys2Proof.Proofs

open Sys2Proof.Machine

/-- Settles O8: the word's value from its two bytes, each address reduced. -/
theorem fetchIsBigEndian : Obligations.FetchIsBigEndian := by
  intro s
  have h : s.fetch.toNat =
      (s.readByte (s.PC.toNat % 4096)).toNat * 256 + (s.readByte ((s.PC.toNat + 1) % 4096)).toNat := by
    rw [toNat_fetch, State.readByte_mod, State.readByte_mod]
  refine ⟨h, fun hPC => ?_⟩
  rw [h, hPC]
  rfl

/-- Settles O45: one byte more is one append; the value is a function of the bytes read. -/
theorem memReadIsBigEndianModulo4096 : Obligations.MemReadIsBigEndianModulo4096 := by
  intro s a n
  refine ⟨?_, ?_, fun t h => State.memRead_congr fun k hk => ?_⟩
  · rw [State.toNat_memRead_succ, State.readByte_mod]
  · have h0 : (s.memRead a 0).toNat = 0 := rfl
    rw [State.toNat_memRead_succ, h0, State.readByte_mod, Nat.zero_mul, Nat.zero_add, Nat.add_zero]
  · simpa only [State.readByte_mod] using h k hk

/-- Settles O46: the write is a run of single-byte stores, byte `k` of the value at `a + k`. -/
theorem memWriteIsBigEndianUnderTheFontPolicy : Obligations.MemWriteIsBigEndianUnderTheFontPolicy := by
  intro s a n v hn
  have hl := State.length_map_byteOf n v
  refine ⟨s.onlyChanges_storeBytes a _, fun b hb hout => s.readByte_storeBytes_out a _ fun k hk => ?_, ?_⟩
  · rw [Nat.mod_eq_of_lt hb]
    exact hout k (hl ▸ hk)
  · rintro hw k b hk rfl
    have hk' := hl.symm ▸ hk
    refine ⟨State.readByte_storeBytes_of_dropped hw (hl.trans_le hn) hk' (Nat.mod_mod _ _), fun hd => ?_⟩
    rw [State.memWrite, State.readByte_storeBytes_of_not_dropped hw (hl.trans_le hn) hk' (Nat.mod_mod _ _) hd,
      List.getElem_map, List.getElem_range, State.toNat_byteOf]

/-- Settles O44: V0 and V1 stand at I and I + 1, where PC fetches. -/
theorem storeIsSeenByTheNextFetch : Obligations.StoreIsSeenByTheNextFetch := by
  intro s x hw hx hI hd0 hd1
  have hI1 : (s.I.toNat + 1) % 4096 = (s.PC.toNat + 1) % 4096 := by omega
  have h0 := State.readByte_storeBytes_regsUpTo hw (Fin.zero_le x) (a := s.I.toNat) hI.symm (hI ▸ hd0)
  have h1 := State.readByte_storeBytes_regsUpTo hw (r := 1) (Fin.le_def.mpr hx) (a := s.I.toNat) hI1.symm (hI1 ▸ hd1)
  have hPC := s.onlyChanges_storeBytes s.I.toNat ((State.regsUpTo x).map s.getV) .PC (by simp)
  refine ⟨_, rfl, hPC, ?_⟩
  rw [State.fetch_eq_opcodeOfBytes, State.setI_PC, hPC, State.readByte_setI, State.readByte_setI, h0, h1]

/-- Settles O47: the canonical list is determined by what it reads as, cell by cell. -/
theorem equalReadingsAreEqualMemories : Obligations.EqualReadingsAreEqualMemories := by
  intro s t hs ht hfb h
  rw [← hfb] at ht
  refine Memory.eq_of_readCell_eq hs ht fun a ha => ?_
  have hread := h a ha
  rwa [State.readByte, State.readByte, Nat.mod_eq_of_lt ha, ← hfb] at hread

/-- Settles O52, by the three answers of a load. -/
theorem loadProgramCopiesOrHalts : Obligations.LoadProgramCopiesOrHalts := by
  intro s bytes given base hbase
  rw [applyOp_loadProgram hbase]
  refine ⟨fun hout => loadProgram_not_admitted ?_ bytes, fun hloaded hlo hhi => ⟨fun hlarge => ?_, fun hfits => ?_⟩⟩
  · rintro ⟨hloaded, hlo, hhi⟩
    obtain hused | hbelow | habove := hout
    · exact Bool.false_ne_true (hloaded.symm.trans hused)
    · omega
    · omega
  · exact ⟨_, loadProgram_too_large ⟨hloaded, hlo, hhi⟩ hlarge, rfl, onlyChanges_setLoaded_raiseHalt s _ _ _, rfl⟩
  · refine ⟨_, loadProgram_fits ⟨hloaded, hlo, hhi⟩ hfits, loaded_setLoaded_pokeBytes_setPC s base bytes _, ?_,
      onlyChanges_setLoaded_pokeBytes_setPC s base bytes _, fun a ha hout => ?_, fun hw k hk => ?_⟩
    · rw [State.setPC_PC, BitVec.toNat_ofNat, Nat.mod_eq_of_lt (by omega)]
    · exact State.readByte_pokeBytes_out (s.setLoaded true) base bytes fun k hk => by omega
    · exact State.readByte_pokeBytes_in (s := s.setLoaded true) hw base bytes (by omega) hk rfl

/-- Settles O53: what O52 says of a machine just constructed, read by the fetch at PC = base. -/
theorem loadedProgramIsFetchedFirst : Obligations.LoadedProgramIsFetchedFirst := by
  intro cfg b0 b1 rest given base hbase hlo hfits
  have hlen : base + (b0 :: b1 :: rest).length ≤ 4096 := by simpa [Nat.add_assoc] using hfits
  obtain ⟨-, hadmitted⟩ := loadProgramCopiesOrHalts (construct cfg) (b0 :: b1 :: rest) given base hbase
  obtain ⟨t, ht, -, hPC, hframe, -, hread⟩ := (hadmitted rfl hlo (by omega)).2 hlen
  have h0 := hread rfl 0 (Nat.zero_lt_succ _)
  have h1 := hread rfl 1 (by simp)
  refine ⟨t, ht, hframe .st (by simp), ?_⟩
  rw [State.fetch_eq_opcodeOfBytes, hPC, h1]
  exact congrArg (opcodeOfBytes · b1) h0

end Sys2Proof.Proofs
end

section
/-! PROOFS. The encoding: the round trip between decoder and encoder in both directions, the opcode table as the decoder's
own map, and the Unknown words (30_encoding.md R44, R45, R46). -/

namespace Sys2Proof

/-! ### A word from its class and the fields left free -/

theorem wordNNN_of_class {op : Word} {c : Nibble} (hc : opClass op = c) : wordNNN c (opNNN op) = op := by
  rw [← hc, wordNNN_fields]

theorem wordXNN_of_class {op : Word} {c : Nibble} (hc : opClass op = c) : wordXNN c (opX op) (opNN op) = op := by
  rw [← hc, wordXNN_fields]

theorem wordXYN_of_class {op : Word} {c : Nibble} (hc : opClass op = c) :
    wordXYN c (opX op) (opY op) (opN op) = op := by
  rw [← hc, wordXYN_fields]

theorem wordXNN_of_class_byte {op : Word} {c : Nibble} {nn : Byte} (hc : opClass op = c) (hn : opNN op = nn) :
    wordXNN c (opX op) nn = op := by
  rw [← hn, wordXNN_of_class hc]

theorem wordXYN_of_class_nibble {op : Word} {c n : Nibble} (hc : opClass op = c) (hn : opN op = n) :
    wordXYN c (opX op) (opY op) n = op := by
  rw [← hn, wordXYN_of_class hc]

theorem opX_wordNNN_of_agrees {c : Nibble} {x : Reg} {nnn : Addr} (h : Instr.offsetRegisterAgrees x nnn = true) :
    opX (wordNNN c nnn) = x :=
  Fin.ext ((val_opX_wordNNN c nnn).trans (of_decide_eq_true h).symm)

theorem offsetRegisterAgrees_fields (op : Word) : Instr.offsetRegisterAgrees (opX op) (opNNN op) = true := by
  refine decide_eq_true ?_
  rw [val_opX, toNat_opNNN]
  omega

theorem lowNibbleAdmitted_iff {strict59 : Bool} {n : Nibble} :
    Instr.lowNibbleAdmitted strict59 n = true ↔ (strict59 = true → n = 0) := by
  cases strict59 <;> simp [Instr.lowNibbleAdmitted]

/-- The 16 classes of 30_encoding.md R44. -/
theorem nibble_cases (c : Nibble) :
    c = 0x0 ∨ c = 0x1 ∨ c = 0x2 ∨ c = 0x3 ∨ c = 0x4 ∨ c = 0x5 ∨ c = 0x6 ∨ c = 0x7 ∨
    c = 0x8 ∨ c = 0x9 ∨ c = 0xA ∨ c = 0xB ∨ c = 0xC ∨ c = 0xD ∨ c = 0xE ∨ c = 0xF := by
  revert c; decide

/-! ### Decoding an encoded instruction -/

theorem decode_encode {strict59 : Bool} {i : Instr} (hw : i.WellFormed strict59 = true) :
    decode strict59 (encode i) = .known i := by
  cases i with
  | cls | ret => rfl
  | jpV x nnn => simp [decode, encode, opX_wordNNN_of_agrees hw]
  | seReg x y n | sneReg x y n =>
    have hn : strict59 = true → n = 0 := lowNibbleAdmitted_iff.mp hw
    simpa [decode, encode] using hn
  | jp | call | seImm | sneImm | ldImm | addImm | ldI | rnd | drw => simp [decode, encode]
  | ldReg | orReg | andReg | xorReg | addReg | sub | shr | subn | shl => simp [decode, decodeClass8, encode]
  | skp | sknp => simp [decode, decodeClassE, encode]
  | ldVDt | ldK | ldDt | ldSt | addI | ldF | bcd | store | load => simp [decode, decodeClassF, encode]

/-! ### Encoding a decoded word -/

/-- What the decoder's answer on `op` says about `op`: a well-formed instruction that encodes it, or `Unknown` of `op`
itself. -/
def Decoded.AnswersFor (strict59 : Bool) (op : Word) : Decoded → Prop
  | .known i => i.WellFormed strict59 = true ∧ encode i = op
  | .unknown op' => op' = op

theorem decodeClass0_answersFor (strict59 : Bool) (op : Word) : (decodeClass0 op).AnswersFor strict59 op := by
  unfold decodeClass0
  split_ifs with hcls hret
  · exact ⟨rfl, hcls.symm⟩
  · exact ⟨rfl, hret.symm⟩
  · rfl

theorem decodeClass8_answersFor (strict59 : Bool) {op : Word} (hc : opClass op = 0x8) :
    (decodeClass8 op).AnswersFor strict59 op := by
  unfold decodeClass8
  split
  case h_10 => rfl
  all_goals exact ⟨rfl, wordXYN_of_class_nibble hc ‹_›⟩

theorem decodeClassE_answersFor (strict59 : Bool) {op : Word} (hc : opClass op = 0xE) :
    (decodeClassE op).AnswersFor strict59 op := by
  unfold decodeClassE
  split
  case h_3 => rfl
  all_goals exact ⟨rfl, wordXNN_of_class_byte hc ‹_›⟩

theorem decodeClassF_answersFor (strict59 : Bool) {op : Word} (hc : opClass op = 0xF) :
    (decodeClassF op).AnswersFor strict59 op := by
  unfold decodeClassF
  split
  case h_10 => rfl
  all_goals exact ⟨rfl, wordXNN_of_class_byte hc ‹_›⟩

/-- Classes 5 and 9: under STRICT_5_9 the low nibble is checked. -/
theorem ite_strict59_answersFor {strict59 : Bool} {op : Word} {i : Instr} (he : encode i = op)
    (hw : i.WellFormed strict59 = Instr.lowNibbleAdmitted strict59 (opN op)) :
    (if strict59 && opN op != 0 then Decoded.unknown op else .known i).AnswersFor strict59 op := by
  split_ifs with h
  · rfl
  · exact ⟨by rw [hw, lowNibbleAdmitted_iff]; simpa using h, he⟩

theorem decode_answersFor (strict59 : Bool) (op : Word) : (decode strict59 op).AnswersFor strict59 op := by
  obtain hc | hc | hc | hc | hc | hc | hc | hc | hc | hc | hc | hc | hc | hc | hc | hc := nibble_cases (opClass op) <;>
    simp only [decode, hc]
  · exact decodeClass0_answersFor strict59 op
  · exact ⟨rfl, wordNNN_of_class hc⟩
  · exact ⟨rfl, wordNNN_of_class hc⟩
  · exact ⟨rfl, wordXNN_of_class hc⟩
  · exact ⟨rfl, wordXNN_of_class hc⟩
  · exact ite_strict59_answersFor (wordXYN_of_class hc) rfl
  · exact ⟨rfl, wordXNN_of_class hc⟩
  · exact ⟨rfl, wordXNN_of_class hc⟩
  · exact decodeClass8_answersFor strict59 hc
  · exact ite_strict59_answersFor (wordXYN_of_class hc) rfl
  · exact ⟨rfl, wordNNN_of_class hc⟩
  · exact ⟨offsetRegisterAgrees_fields op, wordNNN_of_class hc⟩
  · exact ⟨rfl, wordXNN_of_class hc⟩
  · exact ⟨rfl, wordXYN_of_class hc⟩
  · exact decodeClassE_answersFor strict59 hc
  · exact decodeClassF_answersFor strict59 hc

theorem wellFormed_and_encode_of_decode {strict59 : Bool} {op : Word} {i : Instr} (hd : decode strict59 op = .known i) :
    i.WellFormed strict59 = true ∧ encode i = op := by
  simpa [hd, Decoded.AnswersFor] using decode_answersFor strict59 op

theorem eq_of_decode_unknown {strict59 : Bool} {op op' : Word} (hd : decode strict59 op = .unknown op') : op' = op := by
  simpa [hd, Decoded.AnswersFor] using decode_answersFor strict59 op

/-! ### The opcode table -/

/-- The frozen law `MatchesRow` of every form. -/
theorem matchesWord_rowOf_encode (i : Instr) : Laws.MatchesRow.Statement i := by
  cases i with
  | cls => exact Laws.MatchesRow.cls
  | ret => exact Laws.MatchesRow.ret
  | jp nnn => exact Laws.MatchesRow.jp nnn
  | call nnn => exact Laws.MatchesRow.call nnn
  | seImm x nn => exact Laws.MatchesRow.seImm x nn
  | sneImm x nn => exact Laws.MatchesRow.sneImm x nn
  | seReg x y n => exact Laws.MatchesRow.seReg x y n
  | ldImm x nn => exact Laws.MatchesRow.ldImm x nn
  | addImm x nn => exact Laws.MatchesRow.addImm x nn
  | ldReg x y => exact Laws.MatchesRow.ldReg x y
  | orReg x y => exact Laws.MatchesRow.orReg x y
  | andReg x y => exact Laws.MatchesRow.andReg x y
  | xorReg x y => exact Laws.MatchesRow.xorReg x y
  | addReg x y => exact Laws.MatchesRow.addReg x y
  | sub x y => exact Laws.MatchesRow.sub x y
  | shr x y => exact Laws.MatchesRow.shr x y
  | subn x y => exact Laws.MatchesRow.subn x y
  | shl x y => exact Laws.MatchesRow.shl x y
  | sneReg x y n => exact Laws.MatchesRow.sneReg x y n
  | ldI nnn => exact Laws.MatchesRow.ldI nnn
  | jpV x nnn => exact Laws.MatchesRow.jpV x nnn
  | rnd x nn => exact Laws.MatchesRow.rnd x nn
  | drw x y n => exact Laws.MatchesRow.drw x y n
  | skp x => exact Laws.MatchesRow.skp x
  | sknp x => exact Laws.MatchesRow.sknp x
  | ldVDt x => exact Laws.MatchesRow.ldVDt x
  | ldK x => exact Laws.MatchesRow.ldK x
  | ldDt x => exact Laws.MatchesRow.ldDt x
  | ldSt x => exact Laws.MatchesRow.ldSt x
  | addI x => exact Laws.MatchesRow.addI x
  | ldF x => exact Laws.MatchesRow.ldF x
  | bcd x => exact Laws.MatchesRow.bcd x
  | store x => exact Laws.MatchesRow.store x
  | load x => exact Laws.MatchesRow.load x

/-! A row's class and low nibble or byte are read off its own value, once its mask is known. -/

theorem opClass_of_matches {m : String} {v op : Word} (h : OpcodeRow.matchesWord ⟨m, 0xF000, v⟩ op = true)
    (hv : v = wordXNN (opClass v) 0 0 := by decide) : opClass op = opClass v :=
  (matchesWord_F000 m v op _ hv).mp h

theorem opClass_opN_of_matches {m : String} {v op : Word} (h : OpcodeRow.matchesWord ⟨m, 0xF00F, v⟩ op = true)
    (hv : v = wordXYN (opClass v) 0 0 (opN v) := by decide) : opClass op = opClass v ∧ opN op = opN v :=
  (matchesWord_F00F m v op _ _ hv).mp h

theorem opClass_opNN_of_matches {m : String} {v op : Word} (h : OpcodeRow.matchesWord ⟨m, 0xF0FF, v⟩ op = true)
    (hv : v = wordXNN (opClass v) 0 (opNN v) := by decide) : opClass op = opClass v ∧ opNN op = opNN v :=
  (matchesWord_F0FF m v op _ _ hv).mp h

/-- The bits a row fixes steer the decoder to the row's form. -/
theorem exists_decode_of_matchesWord {strict59 : Bool} {op : Word} {i : Instr}
    (h : (rowOf strict59 i).matchesWord op = true) :
    ∃ j, decode strict59 op = .known j ∧ rowOf strict59 j = rowOf strict59 i := by
  cases i with
  | cls | ret =>
    obtain rfl := (matchesWord_FFFF _ _ _).mp h
    exact ⟨_, rfl, rfl⟩
  | jp | call | seImm | sneImm | ldImm | addImm | ldI | jpV | rnd | drw =>
    rw [decode, opClass_of_matches h]
    exact ⟨_, rfl, rfl⟩
  | ldReg | orReg | andReg | xorReg | addReg | sub | shr | subn | shl =>
    obtain ⟨hc, hn⟩ := opClass_opN_of_matches h
    simp only [decode, hc, decodeClass8, hn]
    exact ⟨_, rfl, rfl⟩
  | skp | sknp =>
    obtain ⟨hc, hn⟩ := opClass_opNN_of_matches h
    simp only [decode, hc, decodeClassE, hn]
    exact ⟨_, rfl, rfl⟩
  | ldVDt | ldK | ldDt | ldSt | addI | ldF | bcd | store | load =>
    obtain ⟨hc, hn⟩ := opClass_opNN_of_matches h
    simp only [decode, hc, decodeClassF, hn]
    exact ⟨_, rfl, rfl⟩
  | seReg | sneReg =>
    cases strict59 with
    | false =>
      rw [decode, opClass_of_matches h]
      exact ⟨_, rfl, rfl⟩
    | true =>
      obtain ⟨hc, hn⟩ := opClass_opN_of_matches h
      rw [decode, hc, hn]
      exact ⟨_, rfl, rfl⟩

/-! ### The Unknown words -/

theorem decodeClass0_eq_unknown_iff (op : Word) :
    decodeClass0 op = .unknown op ↔ op.toNat ≠ 0x00E0 ∧ op.toNat ≠ 0x00EE := by
  unfold decodeClass0
  split_ifs with hcls hret
  · simp [hcls]
  · simp [hret]
  · have hne : op.toNat ≠ 0x00E0 ∧ op.toNat ≠ 0x00EE := by constructor <;> bv_omega
    simpa using hne

theorem decodeClass8_eq_unknown_iff (op : Word) :
    decodeClass8 op = .unknown op ↔ op.toNat % 16 ∈ [0x8, 0x9, 0xA, 0xB, 0xC, 0xD, 0xF] := by
  rw [decodeClass8, ← toNat_opN]
  obtain hn | hn | hn | hn | hn | hn | hn | hn | hn | hn | hn | hn | hn | hn | hn | hn := nibble_cases (opN op) <;>
    simp [hn]

theorem decodeClassE_eq_unknown_iff (op : Word) :
    decodeClassE op = .unknown op ↔ op.toNat % 256 ∉ [0x9E, 0xA1] := by
  rw [decodeClassE, ← toNat_opNN]
  split
  case h_3 => simp_all [← BitVec.toNat_inj]
  all_goals simp [*]

theorem decodeClassF_eq_unknown_iff (op : Word) :
    decodeClassF op = .unknown op ↔
      op.toNat % 256 ∉ [0x07, 0x0A, 0x15, 0x18, 0x1E, 0x29, 0x33, 0x55, 0x65] := by
  rw [decodeClassF, ← toNat_opNN]
  split
  case h_10 => simp_all [← BitVec.toNat_inj]
  all_goals simp [*]

theorem opN_eq_zero_iff {op : Word} : opN op = 0#4 ↔ op.toNat % 16 = 0 := by
  rw [← toNat_opN, ← BitVec.toNat_inj, BitVec.toNat_zero]

theorem decode_eq_unknown_iff (strict59 : Bool) (op : Word) :
    decode strict59 op = .unknown op ↔
      (op.toNat / 4096 = 0x0 ∧ op.toNat ≠ 0x00E0 ∧ op.toNat ≠ 0x00EE) ∨
      (op.toNat / 4096 = 0x8 ∧ op.toNat % 16 ∈ [0x8, 0x9, 0xA, 0xB, 0xC, 0xD, 0xF]) ∨
      (op.toNat / 4096 = 0xE ∧ op.toNat % 256 ∉ [0x9E, 0xA1]) ∨
      (op.toNat / 4096 = 0xF ∧ op.toNat % 256 ∉ [0x07, 0x0A, 0x15, 0x18, 0x1E, 0x29, 0x33, 0x55, 0x65]) ∨
      (strict59 = true ∧ (op.toNat / 4096 = 0x5 ∨ op.toNat / 4096 = 0x9) ∧ op.toNat % 16 ≠ 0) := by
  rw [← decodeClass0_eq_unknown_iff, ← decodeClass8_eq_unknown_iff, ← decodeClassE_eq_unknown_iff,
    ← decodeClassF_eq_unknown_iff, ← toNat_opClass]
  obtain hc | hc | hc | hc | hc | hc | hc | hc | hc | hc | hc | hc | hc | hc | hc | hc := nibble_cases (opClass op) <;>
    simp [decode, hc, opN_eq_zero_iff]

end Sys2Proof

namespace Sys2Proof.Proofs

/-- Settles O1, form by form: each field of the encoding is read back by the decoder. -/
theorem decodeOfEncodeIsTheInstruction : Obligations.DecodeOfEncodeIsTheInstruction :=
  fun _ _ => decode_encode

/-- Settles O2, class by class: a word is put together from the fields the decoder read. -/
theorem encodeOfDecodedInstructionIsTheWord : Obligations.EncodeOfDecodedInstructionIsTheWord :=
  fun _ _ _ => wellFormed_and_encode_of_decode

/-- Settles O3: a decoded word is an encoding (O2), and encodings match their rows; the fixed bits of a row steer the
decoder to the row's form. -/
theorem decoderAgreesWithOpcodeTable : Obligations.DecoderAgreesWithOpcodeTable := by
  intro strict59 op
  constructor
  · intro i hd
    obtain ⟨hw, rfl⟩ := wellFormed_and_encode_of_decode hd
    exact matchesWord_rowOf_encode i strict59 hw
  · intro row hrow hm
    obtain ⟨i, -, rfl⟩ := List.mem_map.mp hrow
    exact exists_decode_of_matchesWord hm

/-- Settles O4: both rows are the row of the one instruction the word decodes to (O3). -/
theorem noWordMatchesTwoRows : Obligations.NoWordMatchesTwoRows := by
  intro strict59 op row hrow row' hrow' hm hm'
  obtain ⟨-, hdecodes⟩ := decoderAgreesWithOpcodeTable strict59 op
  obtain ⟨i, hi, rfl⟩ := hdecodes row hrow hm
  obtain ⟨j, hj, rfl⟩ := hdecodes row' hrow' hm'
  obtain rfl : i = j := Decoded.known.inj (hi.symm.trans hj)
  rfl

/-- Settles O5, class by class; the answer `Unknown` carries the word it was given. -/
theorem unknownWordsAreThoseListed : Obligations.UnknownWordsAreThoseListed := by
  intro strict59 op
  refine ⟨?_, fun op' => eq_of_decode_unknown⟩
  rw [← decode_eq_unknown_iff]
  constructor
  · rintro ⟨op', hd⟩
    obtain rfl := eq_of_decode_unknown hd
    exact hd
  · exact fun hd => ⟨op, hd⟩

/-- Settles O6 by running the decoder on the twelve words. -/
theorem wordsOfEachFamilyDecode : Obligations.WordsOfEachFamilyDecode := by
  unfold Obligations.WordsOfEachFamilyDecode
  decide

end Sys2Proof.Proofs
end

section
/-! PROOFS. The step (40_pipeline.md R48, R51 to R54): it always answers, what it does in each executor state, and the
host operations on a halted machine (60_exceptions.md R93, R95, R98). -/

namespace Sys2Proof.Machine

theorem OnlyChanges.st {ps : List Part} {s t : State} (h : OnlyChanges ps s t) (hp : Part.st ∉ ps) : t.st = s.st :=
  h .st hp

/-! ### A running step by what it fetched -/

section

variable {s : State}

theorem step_known {i : Instr} (hs : s.st = .running) (hd : decode s.cfg.strict59 s.fetch = .known i) :
    step s = exec i s.beginStep.advancePC :=
  (step_running hs).trans (runOne_known (s := s.beginStep) hd)

theorem step_unknown {op : Word} (hs : s.st = .running) (hd : decode s.cfg.strict59 s.fetch = .unknown op) :
    step s = execUnknown op s.beginStep.advancePC :=
  (step_running hs).trans (runOne_unknown (s := s.beginStep) hd)

theorem execUnknown_strict (hp : s.cfg.unknownOpcodePolicy = .strict) (op : Word) :
    execUnknown op s = .next (s.raiseAtInstr .invalidOpcode op) := by
  rw [execUnknown, hp]

theorem execUnknown_lenient (hp : s.cfg.unknownOpcodePolicy = .lenient) (op : Word) : execUnknown op s = .next s := by
  rw [execUnknown, hp]

end

/-! ### Every step answers -/

theorem exists_execUnknown_next (op : Word) (s : State) : ∃ t, execUnknown op s = .next t := by
  cases hp : s.cfg.unknownOpcodePolicy with
  | strict => exact ⟨_, execUnknown_strict hp op⟩
  | lenient => exact ⟨_, execUnknown_lenient hp op⟩

theorem exists_execRet_next (s : State) : ∃ t, execRet s = .next t := by
  rcases Nat.eq_zero_or_eq_succ_pred s.SP.val with h0 | hp
  · exact ⟨_, execRet_empty h0⟩
  · exact ⟨_, execRet_of_pos hp⟩

theorem exists_execCall_next (nnn : Addr) (s : State) : ∃ t, execCall nnn s = .next t := by
  rcases Nat.lt_or_eq_of_le s.SP.is_le with hlt | hfull
  · exact ⟨_, execCall_of_lt hlt nnn⟩
  · exact ⟨_, execCall_full hfull nnn⟩

/-- Every form has a rule, and an error is a next state too (R50; log 8). -/
theorem exists_exec_next (i : Instr) (s : State) : ∃ t, exec i s = .next t := by
  cases i with
  | ret => exact exists_execRet_next s
  | call nnn => exact exists_execCall_next nnn s
  | cls | jp _ | seImm _ _ | sneImm _ _ | seReg _ _ _ | ldImm _ _ | addImm _ _ | ldReg _ _ | orReg _ _ | andReg _ _
  | xorReg _ _ | addReg _ _ | sub _ _ | shr _ _ | subn _ _ | shl _ _ | sneReg _ _ _ | ldI _ | jpV _ _ | rnd _ _
  | drw _ _ _ | skp _ | sknp _ | ldVDt _ | ldK _ | ldDt _ | ldSt _ | addI _ | ldF _ | bcd _ | store _ | load _ =>
    exact ⟨_, rfl⟩

/-! ### A jump to itself -/

theorem run_succ_of_step {M : Host.Core} {s t : M.State} (h : M.step s = .next t) (n : Nat) :
    M.run (n + 1) s = M.run n t := by
  rw [Host.Core.run, h]

/-- The jump brings PC back to where the fetch found it, so the step's own flags are all that is left of it (R53). -/
theorem step_jp_self {s : State} {nnn : Addr} (hs : s.st = .running) (hPC : s.PC.toNat = nnn.toNat)
    (hd : decode s.cfg.strict59 s.fetch = .known (.jp nnn)) : step s = .next s.beginStep := by
  have htarget : zext16 nnn = s.PC := BitVec.eq_of_toNat_eq ((toNat_zext16 nnn).trans hPC.symm)
  calc step s = exec (.jp nnn) s.beginStep.advancePC := step_known hs hd
    _ = .next (s.beginStep.advancePC.setPC (zext16 nnn)) := rfl
    _ = .next s.beginStep := by rw [htarget]; rfl

theorem exists_run_jp_self (n : Nat) {s : State} {nnn : Addr} (hs : s.st = .running) (hPC : s.PC.toNat = nnn.toNat)
    (hd : decode s.cfg.strict59 s.fetch = .known (.jp nnn)) :
    ∃ t, Host.Core.run core n s = .next t ∧ OnlyChanges [.dirty, .loaded] s t := by
  induction n generalizing s with
  | zero => exact ⟨s, rfl, OnlyChanges.refl s _⟩
  | succ n ih =>
    obtain ⟨t, hrun, hframe⟩ := ih (s := s.beginStep) hs hPC hd
    exact ⟨t, (run_succ_of_step (M := core) (step_jp_self hs hPC hd) n).trans hrun, s.onlyChanges_beginStep.trans hframe⟩

/-! ### Host operations on a halted machine -/

theorem onlyChanges_tickTimers (s : State) : OnlyChanges [.DT, .ST] s (tickTimers s) :=
  (s.onlyChanges_setDT _).append (State.onlyChanges_setST _ _)

theorem stop_of_halted {s : State} {h : HaltRecord} (hs : s.st = .halted h) : stop s = s :=
  State.raiseUnlessHalted_of_halted hs _ _ _

theorem onlyChanges_step_of_halted {s t : State} {h : HaltRecord} (hs : s.st = .halted h) (ht : step s = .next t) :
    OnlyChanges [.dirty, .loaded] s t := by
  rw [step_halted hs] at ht
  cases ht
  exact s.onlyChanges_beginStep

/-- An operation other than reset keeps the executor state Halted with its record, or it is a load before the first step
that does not fit (R93, 20_memory.md R40; log 21). -/
theorem applyOp_st_of_halted {s t : State} {h : HaltRecord} {op : HostOp} (hs : s.st = .halted h) (hop : op ≠ .reset)
    (ht : applyOp op s = .next t) :
    t.st = .halted h ∨
    ∃ bytes base, op = .loadProgram bytes base ∧ s.loaded = false ∧ 4096 < loadBase s.cfg base + bytes.length ∧
      t.st = .halted ⟨.programTooLarge, none, some (BitVec.ofNat 16 (loadBase s.cfg base))⟩ := by
  cases op with
  | reset => exact absurd rfl hop
  | step => exact .inl (((onlyChanges_step_of_halted hs ht).st (by simp)).trans hs)
  | tickTimers | setKey _ _ => cases ht; exact .inl hs
  | stop => cases ht; exact .inl ((congrArg State.st (stop_of_halted hs)).trans hs)
  | loadProgram bytes base =>
    obtain ⟨⟨hfresh, -⟩, ⟨hlarge, rfl⟩ | ⟨-, rfl⟩⟩ := loadProgram_cases ht
    · exact .inr ⟨bytes, base, rfl, hfresh, hlarge, rfl⟩
    · exact .inl (((onlyChanges_setLoaded_pokeBytes_setPC s _ bytes _).st (by simp)).trans hs)

end Sys2Proof.Machine

namespace Sys2Proof.Proofs

open Sys2Proof.Machine

/-- Settles O10: by executor state, and in Running by what the fetched word decodes to. -/
theorem everyStepGivesANextState : Obligations.EveryStepGivesANextState := by
  intro s
  cases hs : s.st with
  | halted _ => exact ⟨_, step_halted hs⟩
  | awaitingKey _ => exact ⟨_, step_awaitingKey hs⟩
  | running =>
    cases hd : decode s.cfg.strict59 s.fetch with
    | known i => rw [step_known hs hd]; exact exists_exec_next i _
    | unknown op => rw [step_unknown hs hd]; exact exists_execUnknown_next op _

/-- Settles O12: the frame of each operation, and the record by `applyOp_st_of_halted`. -/
theorem haltedMachineKeepsItsRecord : Obligations.HaltedMachineKeepsItsRecord := by
  intro s t h op hs hop ht
  refine ⟨?step, ?tick, ?key, ?stop, ?load, fun hfits => ?record⟩
  case step => rintro rfl; exact onlyChanges_step_of_halted hs ht
  case tick => rintro rfl; cases ht; exact onlyChanges_tickTimers s
  case key => rintro k p rfl; cases ht; exact s.onlyChanges_setK k p
  case stop => rintro rfl; cases ht; exact stop_of_halted hs
  case load =>
    rintro bytes base rfl
    obtain ⟨⟨hfresh, -⟩, ⟨hlarge, rfl⟩ | ⟨hfits, rfl⟩⟩ := loadProgram_cases ht
    · exact ⟨hfresh, fun hle => absurd hlarge (Nat.not_lt.mpr hle), fun _ => onlyChanges_setLoaded_raiseHalt s _ _ _⟩
    · exact ⟨hfresh, fun _ => onlyChanges_setLoaded_pokeBytes_setPC s _ bytes _,
        fun hlt => absurd hlt (Nat.not_lt.mpr hfits)⟩
  case record =>
    obtain hkept | ⟨bytes, base, rfl, -, hlarge, -⟩ := applyOp_st_of_halted hs hop ht
    · exact hkept
    · exact absurd hlarge (Nat.not_lt.mpr (hfits bytes base rfl))

/-- Settles O14, by induction on the number of steps: each is `step_jp_self`. -/
theorem jumpToSelfRunsForever : Obligations.JumpToSelfRunsForever := by
  intro n s nnn hs hPC hd
  obtain ⟨t, hrun, hframe⟩ := exists_run_jp_self n hs hPC hd
  exact ⟨t, hrun, hframe .PC (by simp), (hframe.st (by simp)).trans hs, hframe⟩

/-- Settles O36, by the two answers of the poll. -/
theorem pollTakesTheLowestPressedKey : Obligations.PollTakesTheLowestPressedKey := by
  intro s r hs
  refine ⟨fun hnone => ?_, fun k hk hlow => ?_⟩
  · have hstep : step s = .next s.beginStep := (step_awaitingKey hs).trans (congrArg _ (poll_none (s := s.beginStep) hnone r))
    exact ⟨_, hstep, hs, rfl, rfl, s.onlyChanges_beginStep⟩
  · have hstep : step s = .next ((s.beginStep.setV r (BitVec.ofNat 8 k.val)).setSt .running) :=
      (step_awaitingKey hs).trans (congrArg _ (poll_some (s := s.beginStep) hk hlow r))
    have hvalue : (BitVec.ofNat 8 k.val).toNat = k.val := by rw [BitVec.toNat_ofNat, Nat.mod_eq_of_lt (by omega)]
    refine ⟨_, hstep, rfl, ?_, rfl, rfl, fun _ hr => State.getV_setV_ne s.beginStep _ hr, ?_⟩
    · rw [State.getV_setSt, State.getV_setV_self, hvalue]
    · exact ((s.onlyChanges_beginStep.append (State.onlyChanges_setV _ r _)).append
        (State.onlyChanges_setSt _ _)).mono (by simp)

/-- Settles O7: the fetched word is those two bytes. -/
theorem stepRunsTheDecodedInstruction : Obligations.StepRunsTheDecodedInstruction := by
  intro s i hs hd
  rw [← State.fetch_eq_opcodeOfBytes] at hd
  exact step_known hs hd

/-- Settles O9, by the policy: the Unknown word's own answer writes st only. -/
theorem unknownWordHaltsOrIsANoOp : Obligations.UnknownWordHaltsOrIsANoOp := by
  intro s op hs hd
  obtain ⟨t, ht⟩ := exists_execUnknown_next op s.beginStep.advancePC
  have hframe : OnlyChanges [.st] s.beginStep.advancePC t := onlyChanges_execUnknown ht
  refine ⟨t, (step_unknown hs hd).trans ht, hframe .PC (by simp), hframe .dirty (by simp), hframe .loaded (by simp),
    (s.onlyChanges_beginStep_advancePC.append hframe).mono (by simp), fun hstrict => ?_, fun hlenient => ?_⟩
  · rw [execUnknown_strict (s := s.beginStep.advancePC) hstrict] at ht
    cases ht
    rw [State.raiseAtInstr, State.instrAddr_advancePC]
    rfl
  · rw [execUnknown_lenient (s := s.beginStep.advancePC) hlenient] at ht
    cases ht
    exact hs

end Sys2Proof.Proofs
end

section
/-! PROOFS. Control flow (41_control_flow.md): jumps (R56, R62), call and return by the state of the stack (R55, R57), and
the skips (R58 to R61; 40_pipeline.md R49). -/

namespace Sys2Proof.Machine

/-- A listed part that did not change after all can leave the list. -/
theorem OnlyChanges.drop {p : Part} {ps : List Part} {s t : State} (h : OnlyChanges (p :: ps) s t)
    (hsame : SamePart s t p) : OnlyChanges ps s t := by
  intro q hq
  by_cases hqp : q = p
  · exact hqp ▸ hsame
  · exact h q (List.not_mem_cons_of_ne_of_not_mem hqp hq)

theorem jumpOffsetReg_legacy {c : Config} (hm : c.jumpOffsetMode = .legacy) (x : Reg) : jumpOffsetReg c x = 0 := by
  rw [jumpOffsetReg, hm]

theorem jumpOffsetReg_modern {c : Config} (hm : c.jumpOffsetMode = .modern) (x : Reg) : jumpOffsetReg c x = x := by
  rw [jumpOffsetReg, hm]

theorem State.toNat_PC_advancePC (s : State) : s.advancePC.PC.toNat = (s.PC.toNat + 2) % 65536 :=
  BitVec.toNat_add s.PC 2

/-- What `skipIf` does for a Boolean test that decides `cond`. -/
theorem State.skipsOneWordIf_skipIf (s : State) {c : Bool} {cond : Prop} (hc : c = true ↔ cond) :
    SkipsOneWordIf s (s.skipIf c) cond := by
  cases c with
  | true => exact ⟨fun _ => s.toNat_PC_advancePC, fun hnot => absurd (hc.mp rfl) hnot, s.onlyChanges_skipIf true⟩
  | false => exact ⟨fun hcond => (nomatch hc.mpr hcond), fun _ => rfl, s.onlyChanges_skipIf false⟩

end Sys2Proof.Machine

namespace Sys2Proof.Proofs

open Sys2Proof.Machine

/-- Settles O21, by the number of entries in use. -/
theorem callPushesOrOverflows : Obligations.CallPushesOrOverflows := by
  intro s nnn
  refine ⟨fun hlt => ?_, fun hfull => ?_⟩
  · refine ⟨_, execCall_of_lt hlt nnn, toNat_zext16 nnn, rfl, by simp, fun j hj => ?_,
      (s.onlyChanges_setStack _ _ _).append (State.onlyChanges_setPC _ _) |>.mono (by simp)⟩
    simp [hj.symm]
  · exact ⟨_, execCall_full hfull nnn, rfl, s.onlyChanges_raiseAtInstr _ _⟩

/-- Settles O22, by the number of entries in use. -/
theorem returnPopsOrUnderflows : Obligations.ReturnPopsOrUnderflows := by
  intro s
  refine ⟨fun p hp _ => ?_, fun hempty => ?_⟩
  · exact ⟨_, execRet_of_pos hp, rfl, rfl, fun _ => rfl,
      (s.onlyChanges_setSP _).append (State.onlyChanges_setPC _ _) |>.mono (by simp)⟩
  · exact ⟨_, execRet_empty hempty, rfl, s.onlyChanges_raiseAtInstr _ _⟩

/-- Settles O23: the return (O22) takes back the entry the call pushed (O21), wherever PC stood in between. -/
theorem callThenReturnRestoresPC : Obligations.CallThenReturnRestoresPC := by
  intro s nnn pc hlt
  obtain ⟨t, hcall, -, htSP, htop, -, hcallFrame⟩ := (callPushesOrOverflows s nnn).1 hlt
  obtain ⟨u, hret, huSP, huPC, -, hretFrame⟩ := (returnPopsOrUnderflows (t.setPC pc)).1 s.SP.val htSP hlt
  have hPC : u.PC = s.PC := huPC.trans htop
  have hmove : OnlyChanges [.PC, .stack] t (t.setPC pc) := (t.onlyChanges_setPC pc).mono (by simp)
  have hframe : OnlyChanges [.PC, .stack] s u := (hcallFrame.trans hmove).trans hretFrame
  exact ⟨t, u, hcall, hret, hPC, Fin.ext huSP, hframe.drop hPC⟩

/-- Settles O19: both jumps write PC only, and the sum of an address and a byte fits PC. -/
theorem jumpsWriteTheirTarget : Obligations.JumpsWriteTheirTarget := by
  intro s x nnn
  refine ⟨⟨_, rfl, toNat_zext16 nnn, s.onlyChanges_setPC _⟩,
    ⟨_, rfl, s.onlyChanges_setPC _, fun hlegacy => ?_, fun hmodern => ?_⟩⟩
  · rw [State.setPC_PC, toNat_jumpOffsetTarget, jumpOffsetReg_legacy hlegacy]
  · rw [State.setPC_PC, toNat_jumpOffsetTarget, jumpOffsetReg_modern hmodern]

/-- Settles O24: the four are one skip, each with a test that decides its comparison. -/
theorem comparisonsSkipOneWord : Obligations.ComparisonsSkipOneWord := by
  intro s x y nn n
  exact ⟨⟨_, rfl, s.skipsOneWordIf_skipIf beq_iff_eq⟩, ⟨_, rfl, s.skipsOneWordIf_skipIf bne_iff_ne⟩,
    ⟨_, rfl, s.skipsOneWordIf_skipIf beq_iff_eq⟩, ⟨_, rfl, s.skipsOneWordIf_skipIf bne_iff_ne⟩⟩

end Sys2Proof.Proofs
end

section
/-! PROOFS. Register loads, ALU and random (42_load_alu.md): what a register write, a result with its flag (R63) and a logic
result under the quirk (R68) leave, once each, and which of the three each instruction is. -/

namespace Sys2Proof.Machine

/-! ### The tests behind the flags -/

theorem addCarry_iff (a b : Byte) : addCarry a b = true ↔ a.toNat + b.toNat > 255 := decide_eq_true_iff

theorem notBorrow_iff (a b : Byte) : notBorrow a b = true ↔ b.toNat ≤ a.toNat := decide_eq_true_iff

/-! ### The source of a shift -/

theorem shiftSource_legacy {s : State} (hm : s.cfg.shiftMode = .legacy) (x y : Reg) : shiftSource s x y = s.getV y := by
  rw [shiftSource, hm]

theorem shiftSource_modern {s : State} (hm : s.cfg.shiftMode = .modern) (x y : Reg) : shiftSource s x y = s.getV x := by
  rw [shiftSource, hm]

/-- A number that is Vy in legacy mode and Vx in modern mode is the source. -/
theorem toNat_shiftSource {s : State} {x y : Reg} {src : Nat}
    (hlegacy : s.cfg.shiftMode = .legacy → src = (s.getV y).toNat)
    (hmodern : s.cfg.shiftMode = .modern → src = (s.getV x).toNat) : (shiftSource s x y).toNat = src := by
  cases hm : s.cfg.shiftMode with
  | legacy => rw [shiftSource_legacy hm, hlegacy hm]
  | modern => rw [shiftSource_modern hm, hmodern hm]

/-! ### What the writes leave -/

theorem State.writesRegister_setV (s : State) (x : Reg) {v : Byte} {result : Nat} (hv : v.toNat = result) :
    WritesRegister s (s.setV x v) x result :=
  ⟨by rw [s.getV_setV_self, hv], fun _ hr => s.getV_setV_ne v hr, s.onlyChanges_setV x v⟩

/-- The flag is written last, so VF holds it whatever x is. -/
theorem State.getV_VF_setResultFlag (s : State) (x : Reg) (v : Byte) (b : Bool) :
    (s.setResultFlag x v b).getV VF = flagByte b := by rw [getV_setResultFlag, if_pos rfl]

/-- What `setResultFlag` does for a byte of value `result` and a Boolean test that decides `cond`. -/
theorem State.writesResultAndFlag_setResultFlag (s : State) (x : Reg) {v : Byte} {b : Bool} {result : Nat} {cond : Prop}
    (hv : v.toNat = result) (hb : b = true ↔ cond) : WritesResultAndFlag s (s.setResultFlag x v b) x result cond := by
  refine ⟨fun hx => ?_, fun hcond => ?_, fun hnot => ?_, fun r hrx hrF => ?_, s.onlyChanges_setResultFlag x v b⟩
  · rw [getV_setResultFlag, if_neg hx, if_pos rfl, hv]
  · rw [getV_VF_setResultFlag, flagByte_eq_one, hb]
    exact hcond
  · rw [getV_VF_setResultFlag, flagByte_eq_zero, ← Bool.not_eq_true, hb]
    exact hnot
  · rw [getV_setResultFlag, if_neg hrF, if_neg hrx]

theorem State.getV_VF_setLogicResult_of_quirk {s : State} (hq : s.cfg.logicQuirkResetVf = true) (x : Reg) (v : Byte) :
    (s.setLogicResult x v).getV VF = 0 := by rw [getV_setLogicResult, if_pos ⟨hq, rfl⟩]

/-- The reset of VF concerns only VF, and only under the quirk: elsewhere `setLogicResult` is a plain register write. -/
theorem State.getV_setLogicResult_of_plain {s : State} {r : Reg} (hr : r ≠ VF ∨ s.cfg.logicQuirkResetVf = false)
    (x : Reg) (v : Byte) : (s.setLogicResult x v).getV r = if r = x then v else s.getV r := by
  have hreset : ¬ (s.cfg.logicQuirkResetVf = true ∧ r = VF) := by
    rintro ⟨hq, hVF⟩
    obtain hne | hoff := hr
    · exact hne hVF
    · simp [hq] at hoff
  rw [getV_setLogicResult, if_neg hreset]

/-- 8xy1, 8xy2 and 8xy3 are one logic result, each with a byte that combines the operands bit by bit. -/
theorem exec_eq_setLogicResult {s : State} {x y : Reg} {i : Instr} {f : Bool → Bool → Bool}
    (h : (i = .orReg x y ∧ f = or) ∨ (i = .andReg x y ∧ f = and) ∨ (i = .xorReg x y ∧ f = xor)) :
    ∃ v : Byte, exec i s = .next (s.setLogicResult x v) ∧
      ∀ j, v.getLsbD j = f ((s.getV x).getLsbD j) ((s.getV y).getLsbD j) := by
  obtain ⟨rfl, rfl⟩ | ⟨rfl, rfl⟩ | ⟨rfl, rfl⟩ := h
  · exact ⟨_, rfl, fun _ => BitVec.getLsbD_or⟩
  · exact ⟨_, rfl, fun _ => BitVec.getLsbD_and⟩
  · exact ⟨_, rfl, fun _ => BitVec.getLsbD_xor⟩

end Sys2Proof.Machine

namespace Sys2Proof.Proofs

open Sys2Proof.Machine

/-- Settles O25: both are a write of one register. -/
theorem loadsWriteOneRegister : Obligations.LoadsWriteOneRegister := by
  intro s x y nn
  exact ⟨⟨_, rfl, s.writesRegister_setV x rfl⟩, ⟨_, rfl, s.writesRegister_setV x rfl⟩⟩

/-- Settles O26: a write of one register, whose value is the sum mod 256. -/
theorem addImmediateWrapsWithoutFlag : Obligations.AddImmediateWrapsWithoutFlag := by
  intro s x nn
  exact ⟨_, rfl, s.writesRegister_setV x (toNat_addResult _ _)⟩

/-- Settles O27: the three are one logic result, read at VF under the quirk, at x and at any other register. -/
theorem logicInstructionsFollowTheQuirk : Obligations.LogicInstructionsFollowTheQuirk := by
  intro s x y i f hi
  obtain ⟨v, hexec, hbits⟩ := exec_eq_setLogicResult (s := s) hi
  refine ⟨_, hexec, s.onlyChanges_setLogicResult x v, fun hq => State.getV_VF_setLogicResult_of_quirk hq x v,
    fun hx j _ => ?_, fun r hrx hr => ?_⟩
  · rw [State.getV_setLogicResult_of_plain hx, if_pos rfl, hbits]
  · rw [State.getV_setLogicResult_of_plain hr, if_neg hrx]

/-- Settles O28: the three are one result with its flag, each with the number and the test of its operation. -/
theorem addAndSubtractWriteResultThenFlag : Obligations.AddAndSubtractWriteResultThenFlag := by
  rintro s x y _ _ rfl rfl
  exact ⟨⟨_, rfl, s.writesResultAndFlag_setResultFlag x (toNat_addResult _ _) (addCarry_iff _ _)⟩,
    ⟨_, rfl, s.writesResultAndFlag_setResultFlag x (toNat_subResult _ _) (notBorrow_iff _ _)⟩,
    ⟨_, rfl, s.writesResultAndFlag_setResultFlag x (toNat_subResult _ _) (notBorrow_iff _ _)⟩⟩

/-- Settles O29: both are a result with its flag, taken from the source that the shift mode names. -/
theorem shiftsMoveOneBit : Obligations.ShiftsMoveOneBit := by
  intro s x y src hlegacy hmodern
  obtain rfl := toNat_shiftSource hlegacy hmodern
  exact ⟨⟨_, rfl, s.writesResultAndFlag_setResultFlag x (toNat_shrResult _) (shrFlag_iff _)⟩,
    ⟨_, rfl, s.writesResultAndFlag_setResultFlag x (toNat_shlResult _) (shlFlag_iff _)⟩⟩

/-- Settles O30: a write of one register, then one draw taken. -/
theorem randomByteIsMasked : Obligations.RandomByteIsMasked := by
  intro s x nn
  refine ⟨_, rfl, rfl, (s.onlyChanges_setV x _).append (State.onlyChanges_tookDraw _), fun j _ => ?_, fun r hr => ?_⟩
  · rw [State.getV_tookDraw, State.getV_setV_self, BitVec.getLsbD_and, Bool.and_comm]
  · exact s.getV_setV_ne _ hr

end Sys2Proof.Proofs
end

section
/-! PROOFS. The framebuffer instructions (43_draw.md R77, R78): the pixels the drawing loop flips are those the sprite
covers, and a draw leaves the sprite where it was, so the second of two draws inverts the same pixels back. -/

namespace Sys2Proof.Machine

variable {x y : Reg} {n : Fin 16} {s t : State}

theorem mem_drawTargets_iff_spriteCovers {px : Fin 64} {py : Fin 32} :
    (px, py) ∈ drawTargets x y n s ↔ SpriteCovers x y n s px py := by
  simp only [mem_drawTargets, pixelTarget_eq_some, SpriteCovers, spriteX, spriteY]

theorem pixel_drawnCanvas_of_covers {px : Fin 64} {py : Fin 32} (h : SpriteCovers x y n s px py) :
    State.pixel (drawnCanvas x y n s).fb px py = !State.pixel s.FB px py := by
  rw [(drawnCanvas_spec x y n s).1, if_pos (mem_drawTargets_iff_spriteCovers.mpr h)]

theorem pixel_drawnCanvas_of_not_covers {px : Fin 64} {py : Fin 32} (h : ¬ SpriteCovers x y n s px py) :
    State.pixel (drawnCanvas x y n s).fb px py = State.pixel s.FB px py := by
  rw [(drawnCanvas_spec x y n s).1, if_neg (mt mem_drawTargets_iff_spriteCovers.mp h)]

theorem drawnCanvas_hit_iff :
    (drawnCanvas x y n s).hit = true ↔ ∃ px py, SpriteCovers x y n s px py ∧ State.pixel s.FB px py = true := by
  simp only [(drawnCanvas_spec x y n s).2, Prod.exists, mem_drawTargets_iff_spriteCovers]

/-- The flag is written after the pixels, and dirty after the flag. -/
theorem getV_VF_execDrw (h : execDrw x y n s = .next t) : t.getV VF = flagByte (drawnCanvas x y n s).hit := by
  cases h
  exact State.getV_setV_self _ VF _

/-- Which pixels a sprite covers depends on its bytes, its coordinates and the clip mode, none of which a draw with
coordinates outside VF writes. -/
theorem spriteCovers_iff_of_onlyChanges (h : OnlyChanges [.V, .FB, .dirty] s t) (hx : t.getV x = s.getV x)
    (hy : t.getV y = s.getV y) {px : Fin 64} {py : Fin 32} :
    SpriteCovers x y n t px py ↔ SpriteCovers x y n s px py := by
  have hI : t.I = s.I := h .I (by simp)
  have hbytes : ∀ a, t.readByte a = s.readByte a := h .memory (by simp)
  have hcfg : t.cfg = s.cfg := h.cfg (by simp)
  simp only [SpriteCovers, hI, hbytes, hcfg, hx, hy]

end Sys2Proof.Machine

namespace Sys2Proof.Proofs

open Sys2Proof.Machine

/-- Settles O31: the framebuffer written is the blank one. -/
theorem clearScreenClearsEveryPixel : Obligations.ClearScreenClearsEveryPixel := by
  intro s
  exact ⟨_, rfl, State.pixel_blankFB, rfl, onlyChanges_execCls rfl⟩

/-- Settles O32: the canvas drawn has the covered pixels inverted, and its hit becomes the flag. -/
theorem drawInvertsCoveredPixels : Obligations.DrawInvertsCoveredPixels := by
  intro s x y n
  refine ⟨_, rfl, rfl, onlyChanges_execDrw rfl,
    fun px py => ⟨pixel_drawnCanvas_of_covers, pixel_drawnCanvas_of_not_covers⟩, fun hlit => ?_, fun hclear => ?_,
    fun r hr => State.getV_setV_ne _ _ hr⟩
  · rw [getV_VF_execDrw rfl, flagByte_eq_one, drawnCanvas_hit_iff]
    exact hlit
  · rw [getV_VF_execDrw rfl, flagByte_eq_zero, ← Bool.not_eq_true, drawnCanvas_hit_iff]
    exact hclear

/-- Settles O33: both draws (O32) cover the same pixels, so each is inverted twice, and the second draw finds lit those
that the first found clear. -/
theorem drawingTwiceRestoresTheFramebuffer : Obligations.DrawingTwiceRestoresTheFramebuffer := by
  intro s x y n hx hy
  obtain ⟨t, ht, -, htFrame, htPixel, -, -, htV⟩ := drawInvertsCoveredPixels s x y n
  obtain ⟨u, hu, -, huFrame, huPixel, -, -, huV⟩ := drawInvertsCoveredPixels t x y n
  have hcovers : ∀ px py, SpriteCovers x y n t px py ↔ SpriteCovers x y n s px py :=
    fun px py => spriteCovers_iff_of_onlyChanges htFrame (htV x hx) (htV y hy)
  have hpixel : ∀ px py, State.pixel u.FB px py = State.pixel s.FB px py := by
    intro px py
    by_cases h : SpriteCovers x y n s px py
    · rw [(huPixel px py).1 ((hcovers px py).mpr h), (htPixel px py).1 h, Bool.not_not]
    · rw [(huPixel px py).2 (mt (hcovers px py).mp h), (htPixel px py).2 h]
  have hflag : u.getV VF = 1 ↔ ∃ px py, SpriteCovers x y n s px py ∧ State.pixel s.FB px py = false := by
    rw [getV_VF_execDrw hu, flagByte_eq_one, drawnCanvas_hit_iff]
    refine exists_congr fun px => exists_congr fun py => ?_
    rw [hcovers px py]
    refine and_congr_right fun h => ?_
    rw [(htPixel px py).1 h, Bool.not_eq_true']
  have hframe : OnlyChanges [.FB, .V, .dirty] s u := (htFrame.trans huFrame).mono (by simp)
  exact ⟨t, u, ht, hu, hpixel, hflag, fun r hr => (huV r hr).trans (htV r hr), hframe.drop hpixel⟩

end Sys2Proof.Proofs
end

section
/-! PROOFS. Key input (44_keys.md R79 to R81): the key the skips read, and the wait that Fx0A enters. -/

namespace Sys2Proof.Machine

/-- The key the skips read is the one numbered Vx mod 16 (R79; D14). -/
theorem keyOf_eq {s : State} {x : Reg} {k : Key} (hk : k.val = (s.getV x).toNat % 16) : keyOf s x = s.K[k] := by
  obtain rfl : k = lowNibble (s.getV x) := Fin.ext hk
  rfl

end Sys2Proof.Machine

namespace Sys2Proof.Proofs

open Sys2Proof.Machine

/-- Settles O34: both are one skip, each with a test of the latch at key Vx mod 16. -/
theorem keySkipsReadTheLatch : Obligations.KeySkipsReadTheLatch := by
  intro s x k hk
  have hpressed : keyOf s x = true ↔ s.K[k] = true := by rw [keyOf_eq hk]
  have hreleased : (!keyOf s x) = true ↔ s.K[k] = false := by rw [keyOf_eq hk, Bool.not_eq_true']
  exact ⟨⟨_, rfl, s.skipsOneWordIf_skipIf hpressed⟩, ⟨_, rfl, s.skipsOneWordIf_skipIf hreleased⟩⟩

/-- Settles O35: Fx0A is a write of the executor state, which reads no key. -/
theorem awaitKeyEntersTheWait : Obligations.AwaitKeyEntersTheWait := by
  intro s x
  exact ⟨_, rfl, s.setSt_st _, s.onlyChanges_setSt _⟩

end Sys2Proof.Proofs
end

section
/-! PROOFS. Timers, index register and memory transfers (45_timers_index_memory.md R82 to R90): the digits Fx33 stores, I
after a transfer, and what Fx55 leaves in memory and Fx65 takes back. -/

namespace Sys2Proof.Machine

/-! ### The values written -/

/-- Digit `k` of a byte, the hundreds being digit 0 (R88). -/
theorem toNat_getElem_bcdDigits (v : Byte) {k : Nat} (hk : k < (bcdDigits v).length) :
    (bcdDigits v)[k].toNat = v.toNat / 10 ^ (2 - k) % 10 := by
  have hv := v.isLt
  match k with
  | 0 => simp only [bcdDigits, List.getElem_cons_zero, BitVec.toNat_ofNat]; omega
  | 1 => simp only [bcdDigits, List.getElem_cons_zero, List.getElem_cons_succ, BitVec.toNat_ofNat]; omega
  | 2 => simp only [bcdDigits, List.getElem_cons_zero, List.getElem_cons_succ, BitVec.toNat_ofNat]; omega
  | k + 3 => simp [bcdDigits] at hk

theorem toNat_indexAfterTransfer {c : Config} (hinc : c.saveLoadIncrementsI = true) (i : Word) (x : Reg) :
    (indexAfterTransfer c i x).toNat = (i.toNat + x.val + 1) % 65536 := by
  rw [indexAfterTransfer, if_pos hinc, BitVec.toNat_add, BitVec.toNat_ofNat, Nat.add_mod_mod, Nat.add_assoc]

theorem indexAfterTransfer_of_fixed {c : Config} (hfix : c.saveLoadIncrementsI = false) (i : Word) (x : Reg) :
    indexAfterTransfer c i x = i := by
  rw [indexAfterTransfer, if_neg (by simp [hfix])]

/-- Fx1E adds a byte to I mod 2^16 (R86). -/
theorem toNat_add_setWidth (i : Word) (v : Byte) : (i + v.setWidth 16).toNat = (i.toNat + v.toNat) % 65536 := by
  rw [BitVec.toNat_add, BitVec.toNat_setWidth_of_le (by decide)]

/-! ### The word of Fx65 -/

theorem decode_of_mask_F065 (strict59 : Bool) {op : Word} {x : Reg} (hm : op &&& 0xF0FF = 0xF065)
    (hx : x.val = op.toNat / 256 % 16) : decode strict59 op = .known (.load x) := by
  have hrow : OpcodeRow.matchesWord ⟨"", 0xF0FF, 0xF065⟩ op = true := beq_iff_eq.mpr hm
  obtain ⟨hclass, hbyte⟩ := opClass_opNN_of_matches hrow
  obtain rfl : opX op = x := Fin.ext ((val_opX op).trans hx.symm)
  have hop : encode (.load (opX op)) = op := wordXNN_of_class_byte hclass hbyte
  have hdec : decode strict59 (encode (.load (opX op))) = .known (.load (opX op)) := decode_encode rfl
  rwa [hop] at hdec

/-! ### Registers to memory and back -/

/-- Fx55 leaves the byte at I + r where the font policy drops the write. -/
theorem State.readByte_storeBytes_regsUpTo_of_dropped {s : State} (hw : s.MemWf) {x r : Reg} (hr : r ≤ x) {a a' : Nat}
    (ha : a' % 4096 = (a + r.val) % 4096) (hd : FontDropsWrite s.cfg ((a + r.val) % 4096)) :
    (s.storeBytes a ((regsUpTo x).map s.getV)).readByte a' = s.readByte a' := by
  have hl : ((regsUpTo x).map s.getV).length = x.val + 1 := by rw [List.length_map, length_regsUpTo]
  exact readByte_storeBytes_of_dropped hw (by omega) (hl ▸ Nat.lt_succ_of_le hr) ha hd

/-- Fx65 as one equation per register. -/
theorem getV_execLoad {x : Reg} {s t : State} (h : execLoad x s = .next t) (r : Reg) :
    t.getV r = if r ≤ x then s.readByte (s.I.toNat + r.val) else s.getV r := by
  cases h
  simp only [State.getV_setI, getV_loadRegs, State.mem_regsUpTo]

end Sys2Proof.Machine

namespace Sys2Proof.Proofs

open Sys2Proof.Machine

/-- Settles O40: the digits are a run of three stores, the bytes outside it being Fx33's frame (O17). -/
theorem bcdStoresThreeDigits : Obligations.BcdStoresThreeDigits := by
  rintro s x _ rfl
  refine ⟨_, rfl, s.onlyChanges_storeBytes _ _, fun a ha h0 h1 h2 => ?_, ?_⟩
  · refine readByte_exec_of_not_mayWriteByte (i := .bcd x) rfl ha ?_
    rintro ⟨k, hk, rfl⟩
    obtain rfl | rfl | rfl : k = 0 ∨ k = 1 ∨ k = 2 := by omega
    · exact h0 rfl
    · exact h1 rfl
    · exact h2 rfl
  · rintro hw k _ (hk : k < (bcdDigits (s.getV x)).length) rfl
    have hl : (bcdDigits (s.getV x)).length ≤ 4096 := (by decide : 3 ≤ 4096)
    refine ⟨State.readByte_storeBytes_of_dropped hw hl hk (Nat.mod_mod _ _), fun hd => ?_⟩
    rw [State.readByte_storeBytes_of_not_dropped hw hl hk (Nat.mod_mod _ _) hd, toNat_getElem_bcdDigits]

/-- Settles O41: a run of x + 1 stores, then I, the bytes outside the run being Fx55's frame (O17). -/
theorem storeWritesRegistersToMemory : Obligations.StoreWritesRegistersToMemory := by
  intro s x
  refine ⟨_, rfl, onlyChanges_execStore rfl, fun hinc => toNat_indexAfterTransfer hinc _ _,
    fun hfix => indexAfterTransfer_of_fixed hfix _ _, fun a ha hout => ?_, ?_⟩
  · refine readByte_exec_of_not_mayWriteByte (i := .store x) rfl ha ?_
    rintro ⟨k, hk, hka⟩
    exact hout k hk hka
  · rintro hw r _ hr rfl
    exact ⟨State.readByte_storeBytes_regsUpTo_of_dropped hw hr (Nat.mod_mod _ _),
      State.readByte_storeBytes_regsUpTo hw hr (Nat.mod_mod _ _)⟩

/-- Settles O42: the word by its class and low byte, the registers by the loads, then I. -/
theorem loadReadsRegistersFromMemory : Obligations.LoadReadsRegistersFromMemory := by
  refine ⟨fun strict59 _ _ => decode_of_mask_F065 strict59, fun s x => ?_⟩
  refine ⟨_, rfl, onlyChanges_execLoad rfl, fun r hr => ?_, fun r hr => ?_,
    fun hinc => toNat_indexAfterTransfer hinc _ _, fun hfix => indexAfterTransfer_of_fixed hfix _ _⟩
  · rw [getV_execLoad rfl, if_pos hr, State.readByte_mod]
  · rw [getV_execLoad rfl, if_neg (not_le.mpr hr)]

/-- Settles O43: Fx65 reads (O42) the addresses that Fx55 wrote (O41). -/
theorem storeThenLoadRestoresRegisters : Obligations.StoreThenLoadRestoresRegisters := by
  intro s t u x hw hkept hstore hbytes hI
  obtain ⟨t', hstore', -, -, -, -, hstored⟩ := storeWritesRegistersToMemory s x
  obtain rfl : t' = t := Host.Outcome.next.inj (hstore'.symm.trans hstore)
  obtain ⟨w, hload, -, hloaded, -⟩ := loadReadsRegistersFromMemory.2 u x
  refine ⟨w, hload, fun r hr => ?_⟩
  calc w.getV r = t'.readByte ((s.I.toNat + r.val) % 4096) := by rw [hloaded r hr, hI, hbytes]
    _ = s.getV r := (hstored hw r _ hr rfl).2 (hkept r.val hr)

/-- Settles O38: a write of one register, of DT and of ST, the last read by sound_active (O49). -/
theorem timerInstructionsMoveBytes : Obligations.TimerInstructionsMoveBytes := by
  intro s x
  refine ⟨⟨_, rfl, s.writesRegister_setV x rfl⟩, ⟨_, rfl, rfl, s.onlyChanges_setDT _⟩,
    ⟨_, rfl, rfl, ?_, s.onlyChanges_setST _⟩⟩
  rw [soundIsActiveWhileSTIsPositive, State.setST_ST, gt_iff_lt, Nat.pos_iff_ne_zero, BitVec.toNat_ne]
  rfl

/-- Settles O39: the three are a write of I, each with the number of its operand. -/
theorem indexInstructionsWriteI : Obligations.IndexInstructionsWriteI := by
  intro s x nnn
  exact ⟨⟨_, rfl, toNat_zext16 nnn, s.onlyChanges_setI _⟩,
    ⟨_, rfl, toNat_add_setWidth _ _, s.onlyChanges_setI _⟩,
    ⟨_, rfl, toNat_glyphAddr _ _, s.onlyChanges_setI _⟩⟩

end Sys2Proof.Proofs
end

section
/-! PROOFS. Errors and the invariant (60_exceptions.md R91 to R95, R98): the part of the invariant that speaks of parameters
and memory, which errors a running step can end in, and the record each leaves. -/

namespace Sys2Proof.Machine

/-! ### Memory under the font policy -/

namespace State

/-- The part of `Inv` that the parameters and the memory decide alone. -/
structure SoundMemory (s : State) : Prop where
  cfg  : s.cfg.wf = true
  mem  : s.MemWf
  font : FontIntact s

variable {s t : State}

theorem SoundMemory.of_eq (hs : s.SoundMemory) (hcfg : t.cfg = s.cfg) (hM : t.M = s.M) : t.SoundMemory := by
  obtain ⟨hwf, hmem, hfont⟩ := hs
  refine ⟨hcfg ▸ hwf, ?_, ?_⟩
  · rw [MemWf, hcfg, hM]
    exact hmem
  · unfold FontIntact readByte
    rw [hcfg, hM]
    exact hfont

/-- Stores leave a byte the font policy protects (20_memory.md R29), whatever the form of the memory. -/
theorem readByte_storeBytes_of_fontProtected (s : State) (a : Nat) (bs : List Byte) {a' : Nat}
    (hp : fontProtected s.cfg (a' % 4096) = true) : (s.storeBytes a bs).readByte a' = s.readByte a' := by
  induction bs generalizing s a with
  | nil => rfl
  | cons b rest ih =>
    rw [storeBytes, ih _ _ (by rwa [writeByte_cfg])]
    by_cases ha : a' % 4096 = a % 4096
    · rw [writeByte, if_pos (ha ▸ hp)]
    · exact readByte_writeByte_ne s ha b

/-- The ranges of the two addresses (00_scope.md R4). -/
theorem config_wf_iff (c : Config) : c.wf = true ↔ 0x200 ≤ c.loadAddr.toNat ∧ c.fontBase.toNat + 80 ≤ 0x200 := by
  simp [Config.wf]

theorem fontProtected_of_discard {c : Config} (hwf : c.wf = true) (hd : c.fontWritePolicy = .discard) {k : Nat}
    (hk : k < 80) : fontProtected c ((c.fontBase.toNat + k) % 4096) = true := by
  obtain ⟨-, hbase⟩ := (config_wf_iff c).mp hwf
  rw [fontProtected_iff]
  exact ⟨hd, by omega, by omega⟩

theorem SoundMemory.storeBytes (hs : s.SoundMemory) (a : Nat) (bs : List Byte) : (s.storeBytes a bs).SoundMemory := by
  refine ⟨by rw [storeBytes_cfg]; exact hs.cfg, memWf_storeBytes hs.mem a bs, ?_⟩
  intro hd k hk
  rw [storeBytes_cfg] at hd ⊢
  rw [readByte_storeBytes_of_fontProtected s a bs (fontProtected_of_discard hs.cfg hd hk)]
  exact hs.font hd k hk

@[simp] theorem skipIf_M (c : Bool) (s : State) : (s.skipIf c).M = s.M := by cases c <;> rfl

@[simp] theorem setLogicResult_M (s : State) (x : Reg) (v : Byte) : (s.setLogicResult x v).M = s.M := by
  unfold setLogicResult
  split
  · rfl
  · rfl

end State

@[simp] theorem loadRegs_M (s : State) (is : List Reg) : (loadRegs s is).M = s.M := by
  induction is generalizing s with
  | nil => rfl
  | cons i rest ih => exact ih _

/-- All an instruction can do to memory is a run of stores under the font policy, the empty run in most forms. -/
theorem exec_M_eq_storeBytes {i : Instr} {s t : State} (h : exec i s = .next t) :
    ∃ a bs, t.M = (s.storeBytes a bs).M := by
  cases i with
  | bcd _ | store _ => cases h; exact ⟨_, _, rfl⟩
  | ret => obtain ⟨-, rfl⟩ | ⟨p, -, rfl⟩ := execRet_cases h <;> exact ⟨0, [], rfl⟩
  | call nnn => obtain ⟨-, rfl⟩ | ⟨j, -, rfl⟩ := execCall_cases h <;> exact ⟨0, [], rfl⟩
  | seImm _ _ | sneImm _ _ | seReg _ _ _ | sneReg _ _ _ | skp _ | sknp _ => cases h; exact ⟨0, [], s.skipIf_M _⟩
  | orReg _ _ | andReg _ _ | xorReg _ _ => cases h; exact ⟨0, [], s.setLogicResult_M _ _⟩
  | load _ => cases h; exact ⟨0, [], loadRegs_M s _⟩
  | cls | jp _ | ldImm _ _ | addImm _ _ | ldReg _ _ | addReg _ _ | sub _ _ | shr _ _ | subn _ _ | shl _ _ | ldI _
  | jpV _ _ | rnd _ _ | drw _ _ _ | ldVDt _ | ldK _ | ldDt _ | ldSt _ | addI _ | ldF _ => cases h; exact ⟨0, [], rfl⟩

theorem poll_M (r : Reg) (s : State) : (poll r s).M = s.M := by
  obtain ⟨-, hpoll⟩ | ⟨k, -, hpoll⟩ := poll_cases r s
  · rw [hpoll]
  · rw [hpoll]
    rfl

theorem soundMemory_exec {i : Instr} {s t : State} (hs : s.SoundMemory) (h : exec i s = .next t) : t.SoundMemory := by
  obtain ⟨a, bs, hM⟩ := exec_M_eq_storeBytes h
  have hcfg : t.cfg = s.cfg := (onlyChanges_exec h).cfg (cfg_notMem_mayChange i)
  exact (hs.storeBytes a bs).of_eq (by rw [hcfg, State.storeBytes_cfg]) hM

theorem soundMemory_step {s t : State} (hs : s.SoundMemory) (h : step s = .next t) : t.SoundMemory := by
  have hadvance : s.beginStep.advancePC.SoundMemory := hs.of_eq rfl rfl
  obtain ⟨_, -, rfl⟩ | ⟨r, -, rfl⟩ | ⟨i, -, -, he⟩ | ⟨op, -, -, he⟩ := step_cases h
  · exact hs.of_eq rfl rfl
  · exact hs.of_eq (onlyChanges_poll r s.beginStep .cfg (by simp)) (poll_M r s.beginStep)
  · exact soundMemory_exec hadvance he
  · obtain ⟨-, rfl⟩ | ⟨-, rfl⟩ := execUnknown_cases he
    · exact hadvance.of_eq rfl rfl
    · exact hadvance

/-! ### The executor state after a step -/

theorem loaded_notMem_mayChange (i : Instr) : .loaded ∉ mayChange i := by cases i <;> simp [mayChange]

/-- After any step the program load is used up (10_state.md R22). -/
theorem loaded_of_step {s t : State} (h : step s = .next t) : t.loaded = true := by
  obtain ⟨_, -, rfl⟩ | ⟨r, -, rfl⟩ | ⟨i, -, -, he⟩ | ⟨op, -, -, he⟩ := step_cases h
  · rfl
  · exact onlyChanges_poll r s.beginStep .loaded (by simp)
  · exact onlyChanges_exec he .loaded (loaded_notMem_mayChange i)
  · exact onlyChanges_execUnknown he .loaded (by simp)

/-- The three ways a running step ends in Halted, each with the whole state it leaves (R91, R92). -/
theorem step_halt_cases {s t : State} {r : HaltRecord} (hs : s.st = .running) (h : step s = .next t)
    (ht : t.st = .halted r) :
    (s.cfg.unknownOpcodePolicy = .strict ∧ decode s.cfg.strict59 s.fetch = .unknown s.fetch ∧
      t = s.beginStep.advancePC.raiseAtInstr .invalidOpcode s.fetch) ∨
    (∃ nnn, s.SP.val = 16 ∧ decode s.cfg.strict59 s.fetch = .known (.call nnn) ∧
      t = s.beginStep.advancePC.raiseAtInstr .stackOverflow (encode (.call nnn))) ∨
    (s.SP.val = 0 ∧ decode s.cfg.strict59 s.fetch = .known .ret ∧
      t = s.beginStep.advancePC.raiseAtInstr .stackUnderflow (encode .ret)) := by
  have hbefore : s.beginStep.advancePC.st = .running := hs
  cases hd : decode s.cfg.strict59 s.fetch with
  | known i =>
    rw [step_known hs hd] at h
    obtain hst | ⟨rfl, hempty, -⟩ | ⟨nnn, rfl, hfull, -⟩ | ⟨x, -, hst⟩ := exec_st_cases h
    · rw [hst, hbefore] at ht
      cases ht
    · have hraise := (execRet_empty hempty).symm.trans h
      exact .inr (.inr ⟨hempty, rfl, (Host.Outcome.next.inj hraise).symm⟩)
    · have hraise := (execCall_full hfull nnn).symm.trans h
      exact .inr (.inl ⟨nnn, hfull, rfl, (Host.Outcome.next.inj hraise).symm⟩)
    · rw [hst] at ht
      cases ht
  | unknown op =>
    obtain rfl := eq_of_decode_unknown hd
    rw [step_unknown hs hd] at h
    obtain ⟨hstrict, rfl⟩ | ⟨-, rfl⟩ := execUnknown_cases h
    · exact .inl ⟨hstrict, rfl, rfl⟩
    · rw [hbefore] at ht
      cases ht

/-! ### Legal halt records -/

/-- A halted step's own flags are those every record asks for. -/
theorem legalHalt_beginStep {s : State} {r : HaltRecord} (hr : LegalHalt s r) : LegalHalt s.beginStep r := by
  obtain ⟨kind, opcode, addr⟩ := r
  cases kind with
  | invalidOpcode =>
    obtain ⟨hstrict, -, -, hrecord⟩ := hr
    exact ⟨hstrict, rfl, rfl, hrecord⟩
  | stackOverflow | stackUnderflow =>
    obtain ⟨hSP, -, -, hrecord⟩ := hr
    exact ⟨hSP, rfl, rfl, hrecord⟩
  | programTooLarge => exact ⟨rfl, hr.2⟩
  | externalStop => exact hr

/-- An error of a running step leaves the record, the PC and the flags that R91 and R92 state. -/
theorem legalHalt_of_running {s t : State} {r : HaltRecord} (hs : s.st = .running) (h : step s = .next t)
    (ht : t.st = .halted r) : LegalHalt t r := by
  have haddr : s.beginStep.advancePC.PC = s.beginStep.advancePC.instrAddr + 2 := by simp
  obtain ⟨hstrict, hd, rfl⟩ | ⟨nnn, hfull, -, rfl⟩ | ⟨hempty, -, rfl⟩ := step_halt_cases hs h ht
  · cases ht
    exact ⟨hstrict, rfl, rfl, _, _, rfl, rfl, hd, haddr⟩
  · cases ht
    exact ⟨hfull, rfl, rfl, nnn, _, rfl, rfl, haddr⟩
  · cases ht
    exact ⟨hempty, rfl, rfl, _, rfl, rfl, haddr⟩

/-- A poll never halts, and a halted step keeps its record. -/
theorem legalHalt_of_step {s t : State} {r : HaltRecord} (hlegal : ∀ h, s.st = .halted h → LegalHalt s h)
    (h : step s = .next t) (ht : t.st = .halted r) : LegalHalt t r := by
  cases hs : s.st with
  | running => exact legalHalt_of_running hs h ht
  | halted r' =>
    rw [step_halted hs] at h
    cases h
    exact legalHalt_beginStep (hlegal r ht)
  | awaitingKey x =>
    rw [step_awaitingKey hs] at h
    cases h
    obtain ⟨-, hpoll⟩ | ⟨k, -, hpoll⟩ := poll_cases x s.beginStep
    · rw [hpoll, State.beginStep_st, hs] at ht
      cases ht
    · rw [hpoll] at ht
      cases ht

/-! ### Timers -/

theorem toNat_tickByte (v : Byte) : (tickByte v).toNat = v.toNat - 1 := by
  unfold tickByte
  split
  · exact BitVec.toNat_sub_of_le (BitVec.le_def.mpr ‹0 < v.toNat›)
  · omega

end Sys2Proof.Machine

namespace Sys2Proof.Proofs

open Sys2Proof.Machine

/-- Settles O58: parameters and memory by `soundMemory_step`, the record by `legalHalt_of_step`, and a step uses up the
load. -/
theorem stepKeepsTheInvariant : Obligations.StepKeepsTheInvariant := by
  intro s t hinv h
  obtain ⟨hcfg, hmem, hfont⟩ := soundMemory_step ⟨hinv.cfg, hinv.mem, hinv.font⟩ h
  exact ⟨hcfg, hmem, hfont, fun _ ht => legalHalt_of_step hinv.halt h ht, fun _ _ => loaded_of_step h⟩

/-- Settles O11: `applyOp_st_of_halted` for the other operations; reset is initialisation. -/
theorem onlyResetLeavesHalted : Obligations.OnlyResetLeavesHalted := by
  intro s r hs
  exact ⟨fun _ _ hop ht => applyOp_st_of_halted hs hop ht, _, rfl, rfl, rfl⟩

/-- Settles O13: the kinds of the records that `step_halt_cases` lists. -/
theorem stepErrorsHaveThreeCauses : Obligations.StepErrorsHaveThreeCauses := by
  intro s t r hs h ht
  obtain ⟨hstrict, hd, rfl⟩ | ⟨nnn, hfull, hd, rfl⟩ | ⟨hempty, hd, rfl⟩ := step_halt_cases hs h ht
  · cases ht
    exact .inl ⟨rfl, hstrict, hd⟩
  · cases ht
    exact .inr (.inl ⟨rfl, hfull, nnn, hd⟩)
  · cases ht
    exact .inr (.inr ⟨rfl, hempty, hd⟩)

/-- Settles O48, by induction on the number of ticks. -/
theorem ticksCountDownToZero : Obligations.TicksCountDownToZero := by
  intro n
  induction n with
  | zero => exact fun s => ⟨s, rfl, rfl, rfl, OnlyChanges.refl s _⟩
  | succ n ih =>
    intro s
    obtain ⟨t, hrun, hDT, hST, hframe⟩ := ih (tickTimers s)
    have hDT₁ : (tickTimers s).DT.toNat = s.DT.toNat - 1 := toNat_tickByte s.DT
    have hST₁ : (tickTimers s).ST.toNat = s.ST.toNat - 1 := toNat_tickByte s.ST
    exact ⟨t, hrun, by omega, by omega, (onlyChanges_tickTimers s).trans hframe⟩

/-- Settles O51: outside Halted a stop is `raiseHalt`. -/
theorem stopHaltsOnce : Obligations.StopHaltsOnce := by
  intro s
  refine ⟨fun hs => ⟨stop s, rfl, ?_, s.onlyChanges_raiseUnlessHalted _ _ _⟩,
    fun _ hs => congrArg Host.Outcome.next (stop_of_halted hs)⟩
  rw [stop, State.raiseUnlessHalted_of_not_halted hs]
  rfl

end Sys2Proof.Proofs
end

section
/-! PROOFS. Reset and construction (70_reset_and_hazards.md R104, R105), and the invariant along every run of host
operations (R106). -/

namespace Sys2Proof.Machine

/-! ### The reset contents of memory (20_memory.md R27, R28) -/

namespace Memory

theorem inFont_iff (fontBase : Addr) (a : Nat) :
    inFont fontBase a = true ↔ fontBase.toNat ≤ a ∧ a < fontBase.toNat + 80 := by
  simp [inFont]

theorem resetContents_font (fontBase : Addr) {k : Nat} (hk : k < 80) :
    resetContents fontBase (fontBase.toNat + k) = font.getD k 0 := by
  have hin : inFont fontBase (fontBase.toNat + k) = true := (inFont_iff _ _).mpr ⟨by omega, by omega⟩
  rw [resetContents, if_pos hin, Nat.add_sub_cancel_left]

theorem resetContents_of_not_font {fontBase : Addr} {a : Nat} (ha : a < fontBase.toNat ∨ fontBase.toNat + 80 ≤ a) :
    resetContents fontBase a = 0 := by
  have hout : ¬ inFont fontBase a = true := by rw [inFont_iff]; omega
  rw [resetContents, if_neg hout]

end Memory

/-! ### The state a reset leaves -/

namespace State

variable {cfg : Config}

theorem readByte_initial (cfg : Config) (draws a : Nat) :
    (State.initial cfg draws).readByte a = Memory.resetContents cfg.fontBase (a % 4096) := rfl

theorem readByte_initial_font (hwf : cfg.wf = true) (draws : Nat) {k : Nat} (hk : k < 80) :
    (State.initial cfg draws).readByte (cfg.fontBase.toNat + k) = Memory.font.getD k 0 := by
  obtain ⟨-, hbase⟩ := (config_wf_iff cfg).mp hwf
  rw [readByte_initial, Nat.mod_eq_of_lt (by omega), Memory.resetContents_font _ hk]

theorem readByte_initial_of_not_font (cfg : Config) (draws : Nat) {a : Nat} (ha : a < 4096)
    (hout : a < cfg.fontBase.toNat ∨ cfg.fontBase.toNat + 80 ≤ a) : (State.initial cfg draws).readByte a = 0 := by
  rw [readByte_initial, Nat.mod_eq_of_lt ha, Memory.resetContents_of_not_font hout]

theorem toNat_PC_initial (cfg : Config) (draws : Nat) : (State.initial cfg draws).PC.toNat = cfg.loadAddr.toNat :=
  toNat_zext16 cfg.loadAddr

theorem getElem_K_initial (cfg : Config) (draws : Nat) (k : Key) : (State.initial cfg draws).K[k] = false :=
  Vector.getElem_replicate k.isLt

theorem getV_initial (hz : cfg.resetZero = true) (draws : Nat) (r : Reg) : (State.initial cfg draws).getV r = 0 := by
  simp [getV, State.initial, hz]

theorem getElem_S_initial (hz : cfg.resetZero = true) (draws : Nat) (j : Fin 16) :
    (State.initial cfg draws).S[j] = 0 := by
  simp [State.initial, hz]

/-- With nothing loaded the first fetch reads the zero word (R105), unless its second byte is at 0x000, where the font
may stand. -/
theorem fetch_initial (hwf : cfg.wf = true) (hne : cfg.loadAddr.toNat ≠ 0xFFF) (draws : Nat) :
    (State.initial cfg draws).fetch = 0 := by
  obtain ⟨hload, hbase⟩ := (config_wf_iff cfg).mp hwf
  have hlt := cfg.loadAddr.isLt
  rw [fetch_eq_opcodeOfBytes, toNat_PC_initial,
    readByte_initial_of_not_font cfg draws (by omega) (.inr (by omega)),
    readByte_initial_of_not_font cfg draws (by omega) (.inr (by omega))]
  rfl

theorem soundMemory_initial (hwf : cfg.wf = true) (draws : Nat) : (State.initial cfg draws).SoundMemory where
  cfg := hwf
  mem := rfl
  font := fun _ _ hk => readByte_initial_font hwf draws hk

/-- A program that fits above the font's range leaves the font alone (20_memory.md R40). -/
theorem SoundMemory.pokeBytes {s : State} (hs : s.SoundMemory) {base : Nat} {bytes : List Byte} (hlo : 0x200 ≤ base)
    (hfits : base + bytes.length ≤ 4096) : (s.pokeBytes base bytes).SoundMemory := by
  refine ⟨by rw [pokeBytes_cfg]; exact hs.cfg, memWf_pokeBytes hs.mem base bytes, ?_⟩
  obtain ⟨-, hbase⟩ := (config_wf_iff s.cfg).mp hs.cfg
  intro hd k hk
  rw [pokeBytes_cfg] at hd ⊢
  rw [readByte_pokeBytes_out s base bytes fun j hj => by omega]
  exact hs.font hd k hk

end State

/-! ### The invariant after each host operation -/

theorem Inv.soundMemory {s : State} (hinv : Inv s) : s.SoundMemory := ⟨hinv.cfg, hinv.mem, hinv.font⟩

/-- A running state owes the invariant nothing but its parameters and memory. -/
theorem inv_of_running {s : State} (hs : s.SoundMemory) (hst : s.st = .running) : Inv s where
  cfg := hs.cfg
  mem := hs.mem
  font := hs.font
  halt := fun _ ht => nomatch hst.symm.trans ht
  wait := fun _ ht => nomatch hst.symm.trans ht

/-- A halted state owes it a legal record besides. -/
theorem inv_of_halted {s : State} {r : HaltRecord} (hs : s.SoundMemory) (hst : s.st = .halted r) (hr : LegalHalt s r) :
    Inv s where
  cfg := hs.cfg
  mem := hs.mem
  font := hs.font
  halt := fun _ ht => ExecState.halted.inj (hst.symm.trans ht) ▸ hr
  wait := fun _ ht => nomatch hst.symm.trans ht

theorem inv_initial {cfg : Config} (hwf : cfg.wf = true) (draws : Nat) : Inv (State.initial cfg draws) :=
  inv_of_running (State.soundMemory_initial hwf draws) rfl

/-- Every record but a stop's asks that the load is used up (10_state.md R22). -/
theorem eq_externalStop_of_not_loaded {s : State} {r : HaltRecord} (hr : LegalHalt s r) (hfresh : s.loaded = false) :
    r = ⟨.externalStop, none, none⟩ := by
  obtain ⟨kind, opcode, addr⟩ := r
  cases kind with
  | invalidOpcode | stackOverflow | stackUnderflow =>
    obtain ⟨-, hused, -⟩ := hr
    exact nomatch hfresh.symm.trans hused
  | programTooLarge =>
    obtain ⟨hused, -⟩ := hr
    exact nomatch hfresh.symm.trans hused
  | externalStop =>
    obtain ⟨hop, haddr⟩ := hr
    cases hop
    cases haddr
    rfl

theorem Inv.stop {s : State} (hinv : Inv s) : Inv (stop s) := by
  by_cases hhalted : ∃ r, s.st = .halted r
  · obtain ⟨r, hs⟩ := hhalted
    rwa [stop_of_halted hs]
  · rw [Machine.stop, State.raiseUnlessHalted_of_not_halted (not_exists.mp hhalted)]
    exact inv_of_halted (hinv.soundMemory.of_eq rfl rfl) rfl ⟨rfl, rfl⟩

theorem Inv.loadProgram {s t : State} {bytes : List Byte} {base : Nat} (hinv : Inv s)
    (h : loadProgram bytes base s = .next t) : Inv t := by
  have hready : (s.setLoaded true).SoundMemory := hinv.soundMemory.of_eq rfl rfl
  obtain ⟨⟨hfresh, hlo, hhi⟩, ⟨-, rfl⟩ | ⟨hfits, rfl⟩⟩ := loadProgram_cases h
  · have hbase : (BitVec.ofNat 16 base).toNat = base := by
      rw [BitVec.toNat_ofNat, Nat.mod_eq_of_lt (by omega)]
    exact inv_of_halted (hready.of_eq rfl rfl) rfl ⟨rfl, rfl, _, rfl, by omega, by omega⟩
  · have hsound := (hready.pokeBytes hlo hfits).of_eq
      (t := ((s.setLoaded true).pokeBytes base bytes).setPC (BitVec.ofNat 16 base)) rfl rfl
    have hst := (onlyChanges_setLoaded_pokeBytes_setPC s base bytes (BitVec.ofNat 16 base)).st (by simp)
    cases hs : s.st with
    | running => exact inv_of_running hsound (hst.trans hs)
    | awaitingKey r => exact absurd h (hinv.loadProgram_ne_next hs _ bytes base)
    | halted r =>
      obtain rfl := eq_externalStop_of_not_loaded (hinv.halt r hs) hfresh
      exact inv_of_halted hsound (hst.trans hs) ⟨rfl, rfl⟩

theorem Inv.applyOp {s t : State} {op : HostOp} (hinv : Inv s) (h : applyOp op s = .next t) : Inv t := by
  cases op with
  | step => exact Proofs.stepKeepsTheInvariant s t hinv h
  | tickTimers | setKey _ _ => cases h; exact ⟨hinv.cfg, hinv.mem, hinv.font, hinv.halt, hinv.wait⟩
  | loadProgram bytes base => exact hinv.loadProgram h
  | reset => cases h; exact inv_initial hinv.cfg s.draws
  | stop => cases h; exact hinv.stop

/-- An answered run is its first operation and an answered run of the rest. -/
theorem runOps_cons_cases {op : HostOp} {rest : List HostOp} {s t : State} (h : runOps (op :: rest) s = .next t) :
    ∃ u, applyOp op s = .next u ∧ runOps rest u = .next t := by
  cases hop : applyOp op s with
  | next u => rw [runOps, hop] at h; exact ⟨u, rfl, h⟩
  | fault _ | refused _ => rw [runOps, hop] at h; cases h

end Sys2Proof.Machine

namespace Sys2Proof.Proofs

open Sys2Proof.Machine

/-- Settles O59, by induction on the list of operations, each by `Inv.applyOp`. -/
theorem runsKeepTheInvariant : Obligations.RunsKeepTheInvariant := by
  intro ops
  induction ops with
  | nil => intro s t hinv h; cases h; exact hinv
  | cons op rest ih =>
    intro s t hinv h
    obtain ⟨u, hop, hrest⟩ := runOps_cons_cases h
    exact ih u t (hinv.applyOp hop) hrest

/-- Settles O54: the fetch reads the zero word, which no form has. -/
theorem steppingWithoutALoadHalts : Obligations.SteppingWithoutALoadHalts := by
  intro cfg hwf hstrict hne
  have hdecode : decode cfg.strict59 (construct cfg).fetch = .unknown 0 := by
    rw [construct, State.fetch_initial hwf hne]
    exact (decode_eq_unknown_iff cfg.strict59 0).mpr (.inl (by decide))
  refine ⟨_, (step_unknown rfl hdecode).trans (execUnknown_strict hstrict 0), ?_, ?_⟩
  · rw [State.raiseAtInstr, State.instrAddr_advancePC]
    rfl
  · have hPC := (construct cfg).beginStep.toNat_PC_advancePC
    rw [State.beginStep_PC, construct, State.toNat_PC_initial, Nat.mod_eq_of_lt (by omega)] at hPC
    exact hPC

/-- Settles O55, part by part of the state a reset leaves. -/
theorem resetReinitialises : Obligations.ResetReinitialises := by
  intro s hwf
  refine ⟨_, rfl, rfl, State.toNat_PC_initial _ _, rfl, rfl, rfl, rfl, State.pixel_blankFB,
    State.getElem_K_initial _ _, fun _ hk => State.readByte_initial_font hwf _ hk,
    fun _ ha hout => State.readByte_initial_of_not_font _ _ ha hout, fun hz => ?_⟩
  exact ⟨State.getV_initial hz _, if_pos hz, State.getElem_S_initial hz _, if_pos hz, if_pos hz⟩

/-- Settles O56: registers and keys as after any reset with RESET_ZERO, the font bytes by reading them. -/
theorem resetStateHasTheStatedValues : Obligations.ResetStateHasTheStatedValues := by
  refine ⟨rfl, rfl, rfl, rfl, rfl, rfl, rfl, rfl, rfl, State.getV_initial rfl 0, State.getElem_K_initial _ 0,
    ?_, ?_, ?_, ?_, ?_⟩
  · exact State.readByte_initial_of_not_font Config.standard 0 (by decide) (by decide)
  · exact State.readByte_initial_of_not_font Config.standard 0 (by decide) (by decide)
  · exact State.readByte_initial_of_not_font Config.standard 0 (by decide) (by decide)
  · decide
  · decide

/-- Settles O57: both states are initial states of legal parameters. -/
theorem invariantHoldsAtReset : Obligations.InvariantHoldsAtReset :=
  ⟨inv_initial (by decide) 0, fun _ hwf => inv_initial hwf 0⟩

end Sys2Proof.Proofs
end
